-- ==== Sys2Proof/Word.lean ====
section
/-! DEFINITION. The word types of the engine (00_scope.md R5): plain bit vectors, every value unsigned. -/

namespace Sys2Proof

/-- `byte` of R5: 0 .. 255. -/
abbrev Byte := BitVec 8

/-- `w32` of R5: the word of the chaining registers and of every step of the compression function. -/
abbrev Word := BitVec 32

/-- `w64` of R5: the length counter and the length field. -/
abbrev Word64 := BitVec 64

/-- The command word `CMD[9:0]` of R45. -/
abbrev CommandWord := BitVec 10

/-- The response word `RSP[161:0]` of R51. -/
abbrev ResponseWord := BitVec 162

/-- The `digest` field `RSP[159:0]` of R51. -/
abbrev DigestField := BitVec 160

end Sys2Proof
end

