-- ==== Sys2Proof/Config.lean ====
section
/-! DEFINITION. What the spec leaves open: the free values of the state after a successful `FINAL`
(10_state.md R22, 93_implementation_defined.md U2). None has a body, so nothing can be proved of the value; that two
engines with the same `n` read the same one is the model's choice (log 13). -/

namespace Sys2Proof.Config

/-- `BUF[k]` after the `n`-th use of free values: any byte (R22, U2). Log 1. -/
opaque freeByte (n k : Nat) : Byte

/-- `BUFCNT` after the `n`-th use of free values: any 6-bit value (R22, U2). Log 1. -/
opaque freeCount (n : Nat) : BitVec 6

/-- `LEN` after the `n`-th use of free values: any 64-bit value (R22, U2). Log 1. -/
opaque freeLength (n : Nat) : Word64

end Sys2Proof.Config
end

