-- ==== Sys2Proof/Syntax.lean ====
section
/-! DEFINITION. The four commands (30_encoding.md R48) and the host-side calls that expand to them (R57, R66). -/

namespace Sys2Proof

/-- One constructor per row of the opcode table (R48). The ignored field `ign` of format N is no operand (R49). -/
inductive Instr where
  /-- `INIT` (R61): back to the just-constructed state. -/
  | init
  /-- `UPDB b` (R62): append one message byte. -/
  | updb (b : Byte)
  /-- `FINAL` (R64): pad, absorb, return the digest. -/
  | final
  /-- `UPD0` (R63): an update with an empty byte string. -/
  | upd0
deriving DecidableEq, Repr

/-- The pseudo-instructions of R57, which are also the calls of R66. -/
inductive Pseudo where
  | new
  | reset
  | finalize
  | update (bytes : List Byte)
  | hash (bytes : List Byte)
deriving DecidableEq, Repr

end Sys2Proof
end

