-- ==== Sys2Proof/WellFormed.lean ====
section
/-! DEFINITION. The checks of the encoding. An `Instr` carries its bounds in its types (the operand of `UPDB` is a
byte, and all 256 are legal, R47), so what can be ill formed is a word given to the decoder (R45, R50), a word that is
not the assembler's (R49), and a number written as the operand of `UPDB` (R56). -/

namespace Sys2Proof

/-- A command is one word of exactly 10 bits (R45, R50): `width` bits with the value `bits`. -/
def isCommandWord (width bits : Nat) : Bool := width == 10 && decide (bits < 2 ^ 10)

/-- The canonical words, the ones the assembler emits (R49): in format N the ignored byte is 0. -/
def isCanonical (w : CommandWord) : Bool :=
  w.extractLsb' 8 2 == 1#2 || w.extractLsb' 0 8 == 0#8

/-- The operand `<byte>` of the assembler's `UPDB` is 0..255 (R56). -/
def isByteOperand (n : Nat) : Bool := decide (n ≤ 255)

/-- Every command of the syntax is well formed: its one operand is a byte by its type (R47, R50). -/
def Instr.wellFormed : Instr → Bool
  | .init => true
  | .updb _ => true
  | .final => true
  | .upd0 => true

end Sys2Proof
end

