-- ==== Sys2Proof/Decode.lean ====
section
/-! DEFINITION. The decoder, total on words of any width, and the encoder (30_encoding.md R45 to R50, R55, R59). -/

namespace Sys2Proof

/-- Why a word is no command word (R50). -/
inductive DecodeReject where
  /-- The word is not 10 bits wide, or has a bit above bit 9 set: not a command word (R45, R50, U7). Safe: such a
  word cannot be expressed on the command port, so no run of the engine contains one. -/
  | notACommandWord (width bits : Nat)
deriving DecidableEq, Repr

/-- Field `opc` = `CMD[9:8]` (R46). -/
def opcField (w : CommandWord) : BitVec 2 := w.extractLsb' 8 2

/-- Field `arg` (format B) or `ign` (format N) = `CMD[7:0]` (R45, R47). -/
def argField (w : CommandWord) : Byte := w.extractLsb' 0 8

/-- The decoder of the command port: total, every one of the 1024 words is a command (R48, R50). -/
def decode (w : CommandWord) : Instr :=
  if opcField w = 0b00#2 then .init
  else if opcField w = 0b01#2 then .updb (argField w)
  else if opcField w = 0b10#2 then .final
  else .upd0

/-- The decoder on a word of any width: what is not a 10-bit word is refused by name (R50). -/
def decodeAny (width bits : Nat) : Except DecodeReject Instr :=
  if isCommandWord width bits then .ok (decode (BitVec.ofNat 10 bits)) else .error (.notACommandWord width bits)

/-- The encoder: `opc` above the operand byte, the ignored byte 0 (R48, R49, R59). -/
def encode : Instr → CommandWord
  | .init => 0b00#2 ++ 0#8
  | .updb b => 0b01#2 ++ b
  | .final => 0b10#2 ++ 0#8
  | .upd0 => 0b11#2 ++ 0#8

/-- The table row of a command (R48): the 10-bit `match`. -/
def rowMatch : Instr → CommandWord
  | .init => 0x000#10
  | .updb _ => 0x100#10
  | .final => 0x200#10
  | .upd0 => 0x300#10

/-- The `mask` column of R48, the same in all four rows. -/
def rowMask : CommandWord := 0x300#10

/-- The instruction the decoder reads from a word whose bits are numbered as the opcode table numbers them. The table
gives 10 bits; laid out in whole bytes the bits above bit 9 must be 0, or the word is no command word (R45, log 9). -/
def decodeTableWord (_nbits w : Nat) : Option Instr :=
  match decodeAny 10 w with
  | .ok i => some i
  | .error _ => none

/-- What each pseudo-instruction expands to (R57); an update of no bytes is one `UPD0`, else one `UPDB` a byte in
index order (R66). -/
def updateCommands : List Byte → List Instr
  | [] => [.upd0]
  | b :: bs => (b :: bs).map Instr.updb

/-- The expansions of R57. -/
def expand : Pseudo → List Instr
  | .new => [.init]
  | .reset => [.init]
  | .finalize => [.final]
  | .update bytes => updateCommands bytes
  | .hash bytes => .init :: updateCommands bytes ++ [.final]

end Sys2Proof
end

