-- ==== Sys2Proof/Machine/Operands.lean ====
section
/-! DEFINITION. Rotation, byte order and the offsets the commands form: the notation of 00_scope.md R5, the byte order
of 20_memory.md R32 to R34, the effective addresses of 40_commands.md R74. -/

namespace Sys2Proof.Machine

/-- `rol(x, n)` of R5, the circular left rotation, for 0 < n < 32. -/
def rol (x : Word) (n : Nat) : Word := (x <<< n) ||| (x >>> (32 - n))

/-- `LE32(b0, b1, b2, b3)` of R5: the first byte is the least significant one (R32). -/
def le32 (b0 b1 b2 b3 : Byte) : Word := b3 ++ b2 ++ b1 ++ b0

/-- `le32bytes(w)` of R5: w[7:0], w[15:8], w[23:16], w[31:24]. -/
def le32bytes (w : Word) : List Byte :=
  [w.extractLsb' 0 8, w.extractLsb' 8 8, w.extractLsb' 16 8, w.extractLsb' 24 8]

/-- Byte i of a natural number, byte 0 the least significant: how `MemWrite` and `le64bytes` cut a value (R5, R6). -/
def byteOfNat (v i : Nat) : Byte := BitVec.ofNat 8 (v / 256 ^ i)

/-- `le64bytes(v)` of R5. -/
def le64bytes (v : Word64) : List Byte := (List.range 8).map (byteOfNat v.toNat)

/-- The unsigned number whose little-endian bytes are given, the first byte the least significant (R6 `MemRead`). -/
def leNat : List Byte → Nat
  | [] => 0
  | b :: bs => b.toNat + 256 * leNat bs

/-- The effective address of `UPDB` and of the padding marker: `BUFCNT`, used as it is (R74). -/
def bufOffset (count : BitVec 6) : Fin 64 := ⟨count.toNat, count.isLt⟩

end Sys2Proof.Machine
end

