-- ==== Sys2Proof/Machine/Tables.lean ====
section
/-! DEFINITION. The constants of the engine: the initialisation vector (10_state.md R11), and the five boolean
functions and four constant tables of the compression function (41_compression.md R78 to R84). HD names those tables
and withholds them; the spec supplies them from general knowledge (93_implementation_defined.md GK1 to GK7), and this
file follows the spec. PRESUMED by the spec: log 11. -/

namespace Sys2Proof.Machine

/-- The five chaining words `H[0..4]` (R10). -/
structure Chain where
  h0 : Word
  h1 : Word
  h2 : Word
  h3 : Word
  h4 : Word
deriving DecidableEq, Repr

/-- `H[i]` (R6). -/
def Chain.word (h : Chain) : Fin 5 → Word
  | 0 => h.h0
  | 1 => h.h1
  | 2 => h.h2
  | 3 => h.h3
  | 4 => h.h4

/-- The initialisation vector (R11). -/
def iv : Chain := ⟨0x67452301#32, 0xEFCDAB89#32, 0x98BADCFE#32, 0x10325476#32, 0xC3D2E1F0#32⟩

/-- f1 of R78. -/
def f1 (x y z : Word) : Word := x ^^^ y ^^^ z

/-- f2 of R78: if x then y else z, bit by bit. -/
def f2 (x y z : Word) : Word := (x &&& y) ||| (~~~x &&& z)

/-- f3 of R78. -/
def f3 (x y z : Word) : Word := (x ||| ~~~y) ^^^ z

/-- f4 of R78: if z then x else y, bit by bit. -/
def f4 (x y z : Word) : Word := (x &&& z) ||| (y &&& ~~~z)

/-- f5 of R78. -/
def f5 (x y z : Word) : Word := x ^^^ (y ||| ~~~z)

/-- The functions in ascending order, numbered from 0: number r is f_(r+1). -/
def boolFn : Fin 5 → Word → Word → Word → Word
  | 0 => f1
  | 1 => f2
  | 2 => f3
  | 3 => f4
  | 4 => f5

/-- The round of a step, numbered from 0: `rnd(j) - 1` of R77. -/
def roundOf (j : Fin 80) : Fin 5 := ⟨j.val / 16, by omega⟩

/-- The left line takes the functions in ascending order (R79). -/
def fl (j : Fin 80) : Word → Word → Word → Word := boolFn (roundOf j)

/-- The right line takes them mirrored (R79). -/
def fr (j : Fin 80) : Word → Word → Word → Word := boolFn (4 - roundOf j)

/-- The additive constants of the left line by round (R80). -/
def klRound : Fin 5 → Word
  | 0 => 0x00000000#32
  | 1 => 0x5A827999#32
  | 2 => 0x6ED9EBA1#32
  | 3 => 0x8F1BBCDC#32
  | 4 => 0xA953FD4E#32

/-- The additive constants of the right line by round (R80). -/
def krRound : Fin 5 → Word
  | 0 => 0x50A28BE6#32
  | 1 => 0x5C4DD124#32
  | 2 => 0x6D703EF3#32
  | 3 => 0x7A6D76E9#32
  | 4 => 0x00000000#32

/-- `KL(j)` of R80. -/
def kl (j : Fin 80) : Word := klRound (roundOf j)

/-- `KR(j)` of R80. -/
def kr (j : Fin 80) : Word := krRound (roundOf j)

/-- The rows of `RL` (R81), steps 0..79. -/
def rlTable : List (Fin 16) :=
  [0, 1, 2, 3, 4, 5, 6, 7, 8, 9, 10, 11, 12, 13, 14, 15] ++
  [7, 4, 13, 1, 10, 6, 15, 3, 12, 0, 9, 5, 2, 14, 11, 8] ++
  [3, 10, 14, 4, 9, 15, 8, 1, 2, 7, 0, 6, 13, 11, 5, 12] ++
  [1, 9, 11, 10, 0, 8, 12, 4, 13, 3, 7, 15, 14, 5, 6, 2] ++
  [4, 0, 5, 9, 7, 12, 2, 10, 14, 1, 3, 8, 11, 6, 15, 13]

/-- The rows of `RR` (R82), steps 0..79. -/
def rrTable : List (Fin 16) :=
  [5, 14, 7, 0, 9, 2, 11, 4, 13, 6, 15, 8, 1, 10, 3, 12] ++
  [6, 11, 3, 7, 0, 13, 5, 10, 14, 15, 8, 12, 4, 9, 1, 2] ++
  [15, 5, 1, 3, 7, 14, 6, 9, 11, 8, 12, 2, 10, 0, 4, 13] ++
  [8, 6, 4, 1, 3, 11, 15, 0, 5, 12, 2, 13, 9, 7, 10, 14] ++
  [12, 15, 10, 4, 1, 5, 8, 7, 6, 2, 13, 14, 0, 3, 9, 11]

/-- The rows of `SL` (R83), steps 0..79. -/
def slTable : List Nat :=
  [11, 14, 15, 12, 5, 8, 7, 9, 11, 13, 14, 15, 6, 7, 9, 8] ++
  [7, 6, 8, 13, 11, 9, 7, 15, 7, 12, 15, 9, 11, 7, 13, 12] ++
  [11, 13, 6, 7, 14, 9, 13, 15, 14, 8, 13, 6, 5, 12, 7, 5] ++
  [11, 12, 14, 15, 14, 15, 9, 8, 9, 14, 5, 6, 8, 6, 5, 12] ++
  [9, 15, 5, 11, 6, 8, 13, 12, 5, 12, 13, 14, 11, 8, 5, 6]

/-- The rows of `SR` (R84), steps 0..79. -/
def srTable : List Nat :=
  [8, 9, 9, 11, 13, 15, 15, 5, 7, 7, 8, 11, 14, 14, 12, 6] ++
  [9, 13, 15, 7, 12, 8, 9, 11, 7, 7, 12, 7, 6, 15, 13, 11] ++
  [9, 7, 15, 11, 8, 6, 6, 14, 12, 13, 5, 14, 13, 13, 7, 5] ++
  [15, 5, 8, 11, 14, 14, 6, 14, 6, 9, 12, 9, 12, 5, 15, 8] ++
  [8, 5, 12, 9, 12, 5, 14, 6, 8, 13, 6, 5, 15, 13, 11, 11]

/-- `RL(j)` of R81: the message word the left line adds at step j. -/
def rl (j : Fin 80) : Fin 16 := rlTable.get (j.cast (by rfl))

/-- `RR(j)` of R82: the message word the right line adds at step j. -/
def rr (j : Fin 80) : Fin 16 := rrTable.get (j.cast (by rfl))

/-- `SL(j)` of R83: how far the left line rotates at step j. -/
def sl (j : Fin 80) : Nat := slTable.get (j.cast (by rfl))

/-- `SR(j)` of R84: how far the right line rotates at step j. -/
def sr (j : Fin 80) : Nat := srTable.get (j.cast (by rfl))

end Sys2Proof.Machine
end

