-- ==== Sys2Proof/Machine/Compress.lean ====
section
/-! DEFINITION. The compression function `CompressFn` (41_compression.md R75 to R91): the block parse, the two lines of
80 steps, the combine. The working words are local values, no part of the state (10_state.md R16). -/

namespace Sys2Proof.Machine

/-- A Block: 64 bytes `B[0..63]` (R75). A value of the compression function, never a field of State. -/
abbrev Block := Fin 64 → Byte

/-- The working state of one line: `A, B, C, D, E` (R16, R77). -/
structure Working where
  a : Word
  b : Word
  c : Word
  d : Word
  e : Word
deriving DecidableEq, Repr

/-- The block parse (R76): `X[i] = LE32(B[4i], B[4i+1], B[4i+2], B[4i+3])`. -/
def messageWord (B : Block) (i : Fin 16) : Word :=
  le32 (B ⟨4 * i.val, by omega⟩) (B ⟨4 * i.val + 1, by omega⟩) (B ⟨4 * i.val + 2, by omega⟩)
    (B ⟨4 * i.val + 3, by omega⟩)

/-- The seeding of either line (R77). -/
def seed (h : Chain) : Working := ⟨h.h0, h.h1, h.h2, h.h3, h.h4⟩

/-- The step operation (R85, R86): the sum is rotated, then E is added; the five words move at once, C rotated by 10
on its way into D. `f`, `x`, `k`, `n` are the step's function, message word, constant and shift. -/
def stepOp (f : Word → Word → Word → Word) (x k : Word) (n : Nat) (w : Working) : Working :=
  { a := w.e, b := rol (w.a + f w.b w.c w.d + x + k) n + w.e, c := w.b, d := rol w.c 10, e := w.d }

/-- Left-line step j (R85). -/
def leftStep (X : Fin 16 → Word) (w : Working) (j : Fin 80) : Working :=
  stepOp (fl j) (X (rl j)) (kl j) (sl j) w

/-- Right-line step j (R86). -/
def rightStep (X : Fin 16 → Word) (w : Working) (j : Fin 80) : Working :=
  stepOp (fr j) (X (rr j)) (kr j) (sr j) w

/-- The combine (R88): every right-hand side uses the entry values. -/
def combine (h : Chain) (l r : Working) : Chain :=
  { h0 := h.h1 + l.c + r.d
    h1 := h.h2 + l.d + r.e
    h2 := h.h3 + l.e + r.a
    h3 := h.h4 + l.a + r.b
    h4 := h.h0 + l.b + r.c }

/-- Both lines through the steps in `js`, in one loop, as R91 writes it. -/
def bothLines (X : Fin 16 → Word) (js : List (Fin 80)) (lr : Working × Working) : Working × Working :=
  js.foldl (fun p j => (leftStep X p.1 j, rightStep X p.2 j)) lr

/-- `CompressFn(h, B)` (R91). Irreducible so that no comparison of two states runs it; `rw [compressFn]` opens it. -/
@[irreducible] def compressFn (h : Chain) (B : Block) : Chain :=
  combine h (bothLines (messageWord B) (List.finRange 80) (seed h, seed h)).1
    (bothLines (messageWord B) (List.finRange 80) (seed h, seed h)).2

/-- The two lines (R77), as names for a scheduler of their steps. -/
inductive Line where
  | left
  | right
deriving DecidableEq, Repr

/-- The two lines in progress: each line's working state and the step index it does next (R87). -/
structure InProgress where
  left : Working
  right : Working
  jl : Nat
  jr : Nat
deriving DecidableEq, Repr

/-- One step of the named line; a line that has done its 80 steps does no more (R75, R87). -/
def advance (X : Fin 16 → Word) (p : InProgress) : Line → InProgress
  | .left => if hj : p.jl < 80 then { p with left := leftStep X p.left ⟨p.jl, hj⟩, jl := p.jl + 1 } else p
  | .right => if hj : p.jr < 80 then { p with right := rightStep X p.right ⟨p.jr, hj⟩, jr := p.jr + 1 } else p

/-- The steps of both lines in the order a schedule names them (R87: how the lines are interleaved is free). -/
def runSchedule (X : Fin 16 → Word) (schedule : List Line) (h : Chain) : InProgress :=
  schedule.foldl (advance X) { left := seed h, right := seed h, jl := 0, jr := 0 }

end Sys2Proof.Machine
end

