-- ==== Sys2Proof/Machine/State.lean ====
section
/-! DEFINITION. The state of one engine instance (10_state.md R10 to R15, R23), its two ports (30_encoding.md R58,
70_reset_and_hazards.md R136), and the reasons a step can stop. -/

namespace Sys2Proof.Machine

/-- The block buffer `BUF` (R12, 20_memory.md R30): (offset, byte) pairs, offsets strictly rising and below 64. An
offset that is not listed holds no value: nothing has written it since reset (R21, log 2). -/
abbrev Memory := List Host.Cell

/-- The outcome of a command as its response reports it (30_encoding.md R52). -/
inductive Status where
  | ok
  | digest
  | errInvalidState
deriving DecidableEq, Repr

/-- What reaches the engine from outside, in arrival order: a command word on the command port (R58), or a hardware
reset, which can only fall between two commands (70_reset_and_hazards.md R136, log 5). -/
inductive Input where
  | command (w : CommandWord)
  | reset
deriving DecidableEq, Repr

/-- The engine's state. `inputs` and `responses` are its two ports, `freeIx` is the model's own. -/
structure State where
  /-- `H[0..4]` (R10). -/
  h : Chain
  /-- `BUF[0..63]` (R12). -/
  buf : Memory
  /-- `BUFCNT` (R13). -/
  bufcnt : BitVec 6
  /-- `LEN` (R14). -/
  len : Word64
  /-- `FIN` (R15): true is 1, Finalized. Log 10. -/
  fin : Bool
  /-- The command port: what the host has presented and the engine has not consumed, oldest first (R58). Log 4. -/
  inputs : List Input
  /-- The response port: the response words produced so far, oldest first (R51, R58). Log 6. -/
  responses : List ResponseWord
  /-- The model's own: how many groups of free values have been used (R22). Log 7. -/
  freeIx : Nat
deriving DecidableEq, Repr

/-- The machine right after hardware reset (R23, R135). Nothing is pending on either port (log 8). -/
def State.reset : State :=
  { h := iv, buf := [], bufcnt := 0#6, len := 0#64, fin := false, inputs := [], responses := [], freeIx := 0 }

/-- Reasons to stop with a fault. `InvalidState` is none of them: the spec gives its whole effect (R117, R120). -/
inductive Fault where
  /-- Raised by a read of a buffer byte that holds no value: `Compress` in `UPDB` and `FINAL`. The spec asks for it
  (R21, U1). Safe: it cannot happen in a state that meets `Inv`, and where it stops nothing is claimed. -/
  | bufferByteHasNoValue (offset : Nat)
deriving DecidableEq, Repr

/-- Reasons to refuse. -/
inductive Refusal where
  /-- An instruction with no meaning in this model, raised by its arm of `exec`. Safe. No arm raises it. -/
  | notModelled (mnemonic : String)
deriving DecidableEq, Repr

end Sys2Proof.Machine
end

