-- ==== Sys2Proof/Machine/Flags.lean ====
section
/-! DEFINITION. The one flag, `FIN` (10_state.md R15, R18), and the fields of the response word (30_encoding.md R51 to
R54). There are no condition codes: the additions record nothing (R18, 41_compression.md R89). -/

namespace Sys2Proof.Machine

/-- The test every command that can fail makes first (40_commands.md R65): is the engine Finalized? -/
def State.isFinalized (s : State) : Bool := s.fin

/-- The status codes of R52. The value 3 is produced by none (U5). -/
def statusCode : Status → BitVec 2
  | .ok => 0b00#2
  | .digest => 0b01#2
  | .errInvalidState => 0b10#2

/-- The response word (R51): `status` in RSP[161:160], `digest` in RSP[159:0]. -/
def responseWord (st : Status) (d : DigestField) : ResponseWord := statusCode st ++ d

/-- `RSP[161:160]` (R51). -/
def statusField (r : ResponseWord) : BitVec 2 := r.extractLsb' 160 2

/-- `RSP[159:0]` (R51). -/
def digestField (r : ResponseWord) : DigestField := r.extractLsb' 0 160

/-- Digest byte k in RSP[8k+7:8k] (R53, 42_finalization.md R107): byte 0 is the least significant. -/
def packDigest (d : List Byte) : DigestField := BitVec.ofNat 160 (leNat d)

/-- A response the engine may produce (R52, R54): status 0, 1 or 2, and digest 0 unless the status is DIGEST. -/
def legalResponse (r : ResponseWord) : Bool :=
  (statusField r == statusCode .ok && digestField r == 0#160)
    || statusField r == statusCode .digest
    || (statusField r == statusCode .errInvalidState && digestField r == 0#160)

end Sys2Proof.Machine
end

