-- ==== Sys2Proof/Machine/Ops.lean ====
section
/-! DEFINITION. The named operations over the buffer, the registers and the ports, each written once. -/

namespace Sys2Proof.Machine

/-! ### The buffer (20_memory.md R30, R37) -/

/-- Read one byte; `none` where the offset holds no value (R21). -/
def Memory.byteAt : Memory → Nat → Option Byte
  | [], _ => none
  | (a, b) :: rest, k => if a = k then some b else Memory.byteAt rest k

/-- Write one byte, keeping the offsets rising. -/
def Memory.store : Memory → Nat → Byte → Memory
  | [], k, b => [(k, b)]
  | (a, x) :: rest, k, b =>
    if k < a then (k, b) :: (a, x) :: rest
    else if k = a then (k, b) :: rest
    else (a, x) :: Memory.store rest k b

/-- The canonical form: offsets strictly rising and inside the one address space 0..63 (R30). -/
abbrev Memory.wf (m : Memory) : Prop :=
  List.Pairwise (fun c d => c.1 < d.1) m ∧ ∀ c ∈ m, c.1 < 64

/-- Write offset k if `f` gives a byte for it. -/
def Memory.storeIf (f : Fin 64 → Option Byte) (m : Memory) (k : Fin 64) : Memory :=
  match f k with
  | some b => m.store k.val b
  | none => m

/-- Write every offset for which `f` gives a byte, lowest first. -/
def Memory.storeWhere (m : Memory) (f : Fin 64 → Option Byte) : Memory :=
  (List.finRange 64).foldl (Memory.storeIf f) m

/-- `for k = lo .. hi: BUF[k] <- 0x00` (42_finalization.md R100, R102); empty when hi < lo. -/
def Memory.zeroFill (m : Memory) (lo hi : Nat) : Memory :=
  m.storeWhere fun k => if lo ≤ k.val ∧ k.val ≤ hi then some 0x00#8 else none

/-- `MemWrite(addr, n, v)` of R6: the n low bytes of v, little-endian, at offset addr. -/
def Memory.memWrite (m : Memory) (addr n v : Nat) (_inside : addr + n ≤ 64) : Memory :=
  m.storeWhere fun k => if addr ≤ k.val ∧ k.val < addr + n then some (byteOfNat v (k.val - addr)) else none

/-- n bytes from offset addr up, lowest first; a byte that holds no value is a fault (R21, U1). -/
def Memory.readBytes (m : Memory) (addr : Nat) : Nat → Except Fault (List Byte)
  | 0 => .ok []
  | n + 1 =>
    match m.byteAt addr with
    | none => .error (.bufferByteHasNoValue addr)
    | some b => (Memory.readBytes m (addr + 1) n).map (b :: ·)

/-- `MemRead(addr, n)` of R6: n bytes as an unsigned little-endian integer. -/
def Memory.memRead (m : Memory) (addr n : Nat) (_inside : addr + n ≤ 64) : Except Fault Nat :=
  (m.readBytes addr n).map leNat

/-- The lowest offset that holds no value, if there is one: what a read of the whole block stops at. -/
def Memory.firstMissing (m : Memory) : Option (Fin 64) :=
  (List.finRange 64).find? fun k => (m.byteAt k.val).isNone

/-- The Block `BUF[0..63]` (R12), as `Compress` reads it: every byte must hold a value (R21, U1). -/
def Memory.readBlock (m : Memory) : Except Fault Block :=
  if h : (List.finRange 64).all fun k => (m.byteAt k.val).isSome then
    .ok fun k => (m.byteAt k.val).get (List.all_eq_true.1 h k (List.mem_finRange k))
  else .error (.bufferByteHasNoValue (m.firstMissing.elim 0 Fin.val))

/-- `BUF[k] <- b`. -/
def State.writeBuf (s : State) (k : Fin 64) (b : Byte) : State := { s with buf := s.buf.store k.val b }

/-- The zero fill of R102, on the state. -/
def State.zeroFill (s : State) (lo hi : Nat) : State := { s with buf := s.buf.zeroFill lo hi }

/-- The length field of R103 at offsets 56..63 (R38). -/
def State.writeLengthField (s : State) (l : Word64) : State :=
  { s with buf := s.buf.memWrite 56 8 l.toNat (by omega) }

/-! ### The registers -/

/-- `H <- h` (R6). -/
def State.setH (s : State) (h : Chain) : State := { s with h := h }

/-- `BUFCNT <- c` (R6). -/
def State.setCount (s : State) (c : BitVec 6) : State := { s with bufcnt := c }

/-- `LEN <- l` (R6). -/
def State.setLen (s : State) (l : Word64) : State := { s with len := l }

/-- `FIN <- f` (R6). -/
def State.setFin (s : State) (f : Bool) : State := { s with fin := f }

/-- What remains on the command port. -/
def State.setInputs (s : State) (i : List Input) : State := { s with inputs := i }

/-- `H <- CompressFn(H, BUF[0..63])` (41_compression.md R75): reads the whole buffer, writes `H` and nothing else. -/
def State.compress (s : State) : Except Fault State :=
  match s.buf.readBlock with
  | .error f => .error f
  | .ok B => .ok (s.setH (compressFn s.h B))

/-- What `INIT` and hardware reset do to the registers (40_commands.md R61, 70_reset_and_hazards.md R135). -/
def State.loadIv (s : State) : State := { s with h := iv, bufcnt := 0#6, len := 0#64, fin := false }

/-- Hardware reset (R135) between two commands (R136): the registers as after reset, every byte of `BUF` without a
value (R23, log 3), no response. The ports belong to the host and are kept (log 6). -/
def State.hardwareReset (s : State) : State := { s with h := iv, buf := [], bufcnt := 0#6, len := 0#64, fin := false }

/-- `BUF` with every byte a free value: what a successful `FINAL` leaves (10_state.md R22, U2). Log 1. -/
def freeBuffer (n : Nat) : Memory := (List.range 64).map fun k => (k, Config.freeByte n k)

/-- `BUF`, `BUFCNT`, `LEN` after a successful `FINAL`: unspecified, so free values (R22, U2). Log 1. DESIGN CHOICE, unsafe:
the values are indexed by the engine's own `freeIx` alone, so two engines (R24, R44, R125) that agree in `freeIx` hold the
same ones, where the spec lets them differ. Log 13. -/
def State.forgetMessage (s : State) : State :=
  { s with
    buf := freeBuffer s.freeIx
    bufcnt := Config.freeCount s.freeIx
    len := Config.freeLength s.freeIx
    freeIx := s.freeIx + 1 }

/-! ### The ports -/

/-- `respond(status, d)` (R6, R51): the one response of a command. -/
def State.respond (s : State) (st : Status) (d : DigestField) : State :=
  { s with responses := s.responses ++ [responseWord st d] }

/-- Taking the exception `InvalidState` (60_exceptions.md R115 to R117, R120): the error response and nothing else. There
is no handler, no saved state and nothing to return from (R121): the engine is ready for the next command. -/
def State.raiseInvalidState (s : State) : State := s.respond .errInvalidState 0#160

/-- Consume the oldest input (R39, R58); `none` when nothing is pending. -/
def State.takeInput (s : State) : Option (Input × State) :=
  match s.inputs with
  | [] => none
  | i :: rest => some (i, s.setInputs rest)

/-- The host presents a command word that the engine consumes next (R58). -/
def State.presentCommand (s : State) (w : CommandWord) : State := s.setInputs (.command w :: s.inputs)

/-- An engine with no command pending is at rest and holds its state (70_reset_and_hazards.md R142, R127). Log 4. -/
def State.atRest (s : State) : Host.Outcome State Fault Refusal := .next s

end Sys2Proof.Machine
end

