-- ==== Sys2Proof/Machine/Control.lean ====
section
/-! DEFINITION. `INIT` (40_commands.md R61). -/

namespace Sys2Proof.Machine

/-- `INIT` (R61): legal in both states, never fails; `BUF` is not cleared (R21). -/
def execInit (s : State) : Host.Outcome State Fault Refusal := .next (s.loadIv.respond .ok 0#160)

end Sys2Proof.Machine
end

