-- ==== Sys2Proof/Machine/Finalize.lean ====
section
/-! DEFINITION. `FINAL` (40_commands.md R64) with its two procedures `Pad` and `Serialize` (42_finalization.md R100 to
R107). -/

namespace Sys2Proof.Machine

/-- The length field `L = (LEN × 8) mod 2^64` (R103, R110): a left shift by 3 in 64 bits. -/
def lengthField (len : Word64) : Word64 := len <<< 3

/-- `BUF` made ready for the only padding block, `BUFCNT` ≤ 55 (R100 to R103): the marker, zeros to offset 55, the
length field. The length counter is read as it was on entry. -/
def State.fillOnlyBlock (s : State) : State :=
  ((s.writeBuf (bufOffset s.bufcnt) 0x80#8).zeroFill (s.bufcnt.toNat + 1) 55).writeLengthField (lengthField s.len)

/-- `BUF` made ready for the first of two padding blocks, `BUFCNT` ≥ 56 (R100 to R102): the marker, zeros to the end. -/
def State.fillFirstBlock (s : State) : State :=
  (s.writeBuf (bufOffset s.bufcnt) 0x80#8).zeroFill (s.bufcnt.toNat + 1) 63

/-- `BUF` made ready for the second of two padding blocks (R100, R105): 56 zeros and the length field `l`. -/
def State.fillSecondBlock (s : State) (l : Word64) : State := (s.zeroFill 0 55).writeLengthField l

/-- `Pad()` (R100): one block when `BUFCNT` ≤ 55, else two (R104), the one with the message bytes first (R105). -/
def State.pad (s : State) : Except Fault State :=
  if s.bufcnt.toNat ≤ 55 then s.fillOnlyBlock.compress
  else
    match s.fillFirstBlock.compress with
    | .error f => .error f
    | .ok t => (t.fillSecondBlock (lengthField s.len)).compress

/-- `Serialize(H)` (R106): the five words in index order, each as 4 bytes little-endian; 20 bytes. -/
def serialize (h : Chain) : List Byte :=
  le32bytes h.h0 ++ le32bytes h.h1 ++ le32bytes h.h2 ++ le32bytes h.h3 ++ le32bytes h.h4

/-- `FINAL` (R64). What `BUF`, `BUFCNT`, `LEN` hold afterwards is unspecified (R22): free values. -/
def execFinal (s : State) : Host.Outcome State Fault Refusal :=
  if s.isFinalized then .next s.raiseInvalidState
  else
    match s.pad with
    | .error f => .fault f
    | .ok t => .next ((t.forgetMessage.setFin true).respond .digest (packDigest (serialize t.h)))

end Sys2Proof.Machine
end

