-- ==== Sys2Proof/Machine/Update.lean ====
section
/-! DEFINITION. `UPDB` and `UPD0` (40_commands.md R62, R63). -/

namespace Sys2Proof.Machine

/-- The byte is taken: `BUF[BUFCNT] <- b`, `LEN <- LEN +64 1` (R62). -/
def State.acceptByte (s : State) (b : Byte) : State :=
  (s.writeBuf (bufOffset s.bufcnt) b).setLen (s.len + 1#64)

/-- `UPDB b` (R62): the byte that fills the buffer is absorbed in the same command. -/
def execUpdb (b : Byte) (s : State) : Host.Outcome State Fault Refusal :=
  if s.isFinalized then .next s.raiseInvalidState
  else if s.bufcnt = 63#6 then
    match (s.acceptByte b).compress with
    | .error f => .fault f
    | .ok t => .next ((t.setCount 0#6).respond .ok 0#160)
  else .next (((s.acceptByte b).setCount (s.bufcnt + 1#6)).respond .ok 0#160)

/-- `UPD0` (R63): an update with no bytes; it still fails when Finalized. -/
def execUpd0 (s : State) : Host.Outcome State Fault Refusal :=
  if s.isFinalized then .next s.raiseInvalidState
  else .next (s.respond .ok 0#160)

end Sys2Proof.Machine
end

