-- ==== Sys2Proof/Machine/Dispatch.lean ====
section
/-! DEFINITION. One arm per command. -/

namespace Sys2Proof.Machine

def exec (i : Instr) (s : State) : Host.Outcome State Fault Refusal :=
  match i with
  | .init => Sys2Proof.Machine.execInit s
  | .updb b => Sys2Proof.Machine.execUpdb b s
  | .final => Sys2Proof.Machine.execFinal s
  | .upd0 => Sys2Proof.Machine.execUpd0 s

end Sys2Proof.Machine
end

