-- ==== Sys2Proof/Machine/Step.lean ====
section
/-! DEFINITION. One step: the oldest input is consumed and its whole effect happens (20_memory.md R39). -/

namespace Sys2Proof.Machine

/-- One step of the engine. A command word runs its command (R58); a hardware reset between commands acts as R135 says
(R136); with nothing pending the engine is at rest (R142). -/
def step (s : State) : Host.Outcome State Fault Refusal :=
  match s.takeInput with
  | none => s.atRest
  | some (.command w, t) => exec (decode w) t
  | some (.reset, t) => .next t.hardwareReset

/-- `s` with the command word of value `w` presented on the command port ahead of everything pending. A word that is
no command word cannot be expressed on the port (R50, U7, log 9): then nothing is presented. -/
def State.withFetchWord (s : State) (_nbits w : Nat) : State :=
  if isCommandWord 10 w then s.presentCommand (BitVec.ofNat 10 w) else s

end Sys2Proof.Machine
end

