-- ==== Sys2Proof/Machine/Assembler.lean ====
section
/-! DEFINITION. The assembler notation of a command stream (30_encoding.md R56, R57): one command a line, mnemonic in
capitals, `;` to the end of the line a comment. A line is a list of characters; it assembles to the commands it stands
for, or to nothing where it is no line of the notation. What R56 leaves open (blanks, quoted `;`): log 12. -/

namespace Sys2Proof.Machine

/-- The tokens of a line. -/
inductive Token where
  | word (cs : List Char)
  | character (c : Char)
  | text (cs : List Char)
  | comma
deriving DecidableEq, Repr

/-- Where the reader of a line stands: between tokens, in a bare word, after an opening apostrophe, after the character
that follows it, in a quoted text. -/
inductive LexMode where
  | between
  | inWord (acc : List Char)
  | opened
  | closing (c : Char)
  | inText (acc : List Char)
deriving DecidableEq, Repr

/-- Cut a line into tokens. -/
def lex : LexMode → List Char → Option (List Token)
  | .between, [] => some []
  | .between, c :: cs =>
    if c = ';' then some []
    else if c = ' ' ∨ c = '\t' then lex .between cs
    else if c = ',' then (lex .between cs).map (.comma :: ·)
    else if c = '\'' then lex .opened cs
    else if c = '"' then lex (.inText []) cs
    else lex (.inWord [c]) cs
  | .inWord acc, [] => some [.word acc]
  | .inWord acc, c :: cs =>
    if c = ';' then some [.word acc]
    else if c = ' ' ∨ c = '\t' then (lex .between cs).map (.word acc :: ·)
    else if c = ',' then (lex .between cs).map fun ts => .word acc :: .comma :: ts
    else lex (.inWord (acc ++ [c])) cs
  | .opened, [] => none
  | .opened, c :: cs => lex (.closing c) cs
  | .closing _, [] => none
  | .closing c, d :: cs => if d = '\'' then (lex .between cs).map (.character c :: ·) else none
  | .inText _, [] => none
  | .inText acc, c :: cs =>
    if c = '"' then (lex .between cs).map (.text acc :: ·) else lex (.inText (acc ++ [c])) cs

/-- The value of a digit in base 10 or 16. -/
def digitValue (base : Nat) (c : Char) : Option Nat :=
  let v := c.toNat
  if 48 ≤ v ∧ v ≤ 57 then some (v - 48)
  else if base = 16 ∧ 65 ≤ v ∧ v ≤ 70 then some (v - 55)
  else if base = 16 ∧ 97 ≤ v ∧ v ≤ 102 then some (v - 87)
  else none

/-- A number written in digits, most significant first. -/
def numberFrom (base : Nat) : Nat → List Char → Option Nat
  | acc, [] => some acc
  | acc, c :: cs => (digitValue base c).bind fun d => numberFrom base (base * acc + d) cs

/-- A decimal (97) or hexadecimal (0x61) number (R56). -/
def numberOf : List Char → Option Nat
  | [] => none
  | '0' :: 'x' :: c :: cs => numberFrom 16 0 (c :: cs)
  | c :: cs => numberFrom 10 0 (c :: cs)

/-- A byte 0..255 (R56). -/
def byteOfNumber (n : Nat) : Option Byte := if isByteOperand n then some (BitVec.ofNat 8 n) else none

/-- The byte of an ASCII character (R56). -/
def asciiByte (c : Char) : Option Byte := if c.toNat < 128 then some (BitVec.ofNat 8 c.toNat) else none

/-- `<byte>` of R56: decimal, hexadecimal, or one ASCII character. -/
def byteToken : Token → Option Byte
  | .word cs => (numberOf cs).bind byteOfNumber
  | .character c => asciiByte c
  | .text _ => none
  | .comma => none

/-- A byte list `b0, b1, ..., b(n-1)`, n ≥ 1 (R57). -/
def byteList : List Token → Option (List Byte)
  | [] => none
  | [t] => (byteToken t).map ([·])
  | t :: .comma :: ts => (byteToken t).bind fun b => (byteList ts).map (b :: ·)
  | _ :: _ => none

/-- The operand of `UPDATE` and `HASH` (R57): an ASCII string, an empty list, or a byte list. -/
def bytesOperand : List Token → Option (List Byte)
  | [] => some []
  | [.text cs] => cs.mapM asciiByte
  | ts => byteList ts

/-- A line's commands: those of R56 and the pseudo-instructions of R57. An empty or comment line has none. -/
def assembleTokens : List Token → Option (List Instr)
  | [] => some []
  | [.word ['I', 'N', 'I', 'T']] => some [.init]
  | [.word ['U', 'P', 'D', '0']] => some [.upd0]
  | [.word ['F', 'I', 'N', 'A', 'L']] => some [.final]
  | [.word ['U', 'P', 'D', 'B'], t] => (byteToken t).map fun b => [.updb b]
  | [.word ['N', 'E', 'W']] => some (expand .new)
  | [.word ['R', 'E', 'S', 'E', 'T']] => some (expand .reset)
  | [.word ['F', 'I', 'N', 'A', 'L', 'I', 'Z', 'E']] => some (expand .finalize)
  | .word ['U', 'P', 'D', 'A', 'T', 'E'] :: ts => (bytesOperand ts).map fun bs => expand (.update bs)
  | .word ['H', 'A', 'S', 'H'] :: ts => (bytesOperand ts).map fun bs => expand (.hash bs)
  | _ => none

/-- Assemble one line (R56). -/
def assembleLine (line : List Char) : Option (List Instr) := (lex .between line).bind assembleTokens

/-- A digit of the hexadecimal notation. -/
def hexDigit (n : Nat) : Char := if n < 10 then Char.ofNat (48 + n) else Char.ofNat (55 + n)

/-- A command in the notation of R56, the byte in hexadecimal. -/
def disassemble : Instr → List Char
  | .init => ['I', 'N', 'I', 'T']
  | .updb b => ['U', 'P', 'D', 'B', ' ', '0', 'x', hexDigit (b.toNat / 16), hexDigit (b.toNat % 16)]
  | .final => ['F', 'I', 'N', 'A', 'L']
  | .upd0 => ['U', 'P', 'D', '0']

end Sys2Proof.Machine
end

