-- ==== Sys2Proof/Machine/Chip.lean ====
section
/-! DEFINITION. A chip with several engine instances (20_memory.md R44, 60_exceptions.md R125): the product of
independent copies. The number of them, N_INSTANCES, is open, at least 1 (00_scope.md R4; 92_eei_decisions.md D24), and is
the index n. -/

namespace Sys2Proof.Machine

/-- n engine instances, each with its own state and ports (R24, R125). Nothing is shared; that the free values two of
them hold after `FINAL` are equal where their `freeIx` is, is the model's choice (log 13). -/
structure Chip (n : Nat) where
  engines : Vector State n
  /-- N_INSTANCES is at least 1 (R4, U11). -/
  atLeastOne : 1 ≤ n
deriving DecidableEq, Repr

/-- A chip whose n instances have just been reset; start-up is reset and nothing more (R125). -/
def Chip.reset (n : Nat) (atLeastOne : 1 ≤ n) : Chip n := { engines := Vector.replicate n State.reset, atLeastOne }

/-- One step of instance i; the others have no part in it (R44). -/
def Chip.stepAt {n : Nat} (c : Chip n) (i : Fin n) : Host.Outcome (Chip n) Fault Refusal :=
  match step c.engines[i] with
  | .next t => .next { c with engines := c.engines.set i t }
  | .fault f => .fault f
  | .refused r => .refused r

end Sys2Proof.Machine
end

