-- ==== Sys2Proof/Machine/Reference.lean ====
section
/-! DEFINITION. The function the engine computes, said of whole messages and not of commands: the padded message
(42_finalization.md R109), its blocks, `RMD160(m)` (40_commands.md R70). The machine does not use this file; claims
compare the machine with it. -/

namespace Sys2Proof.Machine

/-- `z = (55 - n) mod 64`, the mathematical modulus (R102, R110). -/
def zeroCount (n : Nat) : Nat := ((55 - (n : Int)) % 64).toNat

/-- The block `FINAL` absorbs when `BUFCNT` = n ≤ 55 (R100, R104): n message bytes, the marker, zeros, the length field. -/
def onlyPaddingBlock (B : Block) (n : Nat) (l : Word64) : Block := fun k =>
  if k.val < n then B k else if k.val = n then 0x80#8 else if k.val < 56 then 0x00#8
  else byteOfNat l.toNat (k.val - 56)

/-- The first of two blocks, when n ≥ 56 (R100, R105): n message bytes, the marker, zeros. -/
def firstPaddingBlock (B : Block) (n : Nat) : Block := fun k =>
  if k.val < n then B k else if k.val = n then 0x80#8 else 0x00#8

/-- The second of two blocks (R100, R105): 56 zero bytes and the length field. -/
def secondPaddingBlock (l : Word64) : Block := fun k =>
  if k.val < 56 then 0x00#8 else byteOfNat l.toNat (k.val - 56)

/-- The padded message `P` of R70 and R109; the length field is `(8 × n) mod 2^64`. -/
def paddedMessage (m : List Byte) : List Byte :=
  m ++ [0x80#8] ++ List.replicate (zeroCount m.length) 0x00#8 ++ le64bytes (BitVec.ofNat 64 (8 * m.length))

/-- `P[64i .. 64i+63]` (R70). The length of a padded message is a multiple of 64, so every offset of a block of it is
in range and the default byte is never taken. -/
def blockAt (P : List Byte) (i : Nat) : Block := fun k => P.getD (64 * i + k.val) 0#8

/-- The chaining words after the first `n` blocks of `P`, from the initialisation vector (R70). -/
def chainAfter (P : List Byte) (n : Nat) : Chain :=
  (List.range n).foldl (fun h i => compressFn h (blockAt P i)) iv

/-- The chaining words after the last block of the padded message (R70). -/
def rmd160Chain (m : List Byte) : Chain := chainAfter (paddedMessage m) ((paddedMessage m).length / 64)

/-- `RMD160(m)` (R70). -/
def rmd160 (m : List Byte) : List Byte := serialize (rmd160Chain m)

end Sys2Proof.Machine
end

