-- ==== Sys2Proof/Safety.lean ====
section
/-! DEFINITION. What claims are stated in: when the buffered bytes have values, the invariant of every step, when two
states cannot be told apart by any response, and a stream of commands on the port. -/

namespace Sys2Proof.Machine

/-- The meaningful bytes `BUF[0] .. BUF[BUFCNT-1]` hold a value (10_state.md R13). -/
abbrev Readable (s : State) : Prop :=
  ∀ k : Fin 64, k.val < s.bufcnt.toNat → (s.buf.byteAt k.val).isSome = true

/-- `BUFCNT = LEN mod 64` (R20). -/
abbrev CountMatchesLength (s : State) : Prop := s.bufcnt.toNat = s.len.toNat % 64

/-- The invariant every step keeps: the buffer is in canonical form (R30), in the Accepting state the fill count
follows the length counter (R20) and the buffered bytes have values (R13), and no response is anything but the three
outcomes, with no digest in an OK or an error (30_encoding.md R52, R54). -/
abbrev Inv (s : State) : Prop :=
  s.buf.wf ∧ (s.fin = false → CountMatchesLength s ∧ Readable s) ∧ ∀ r ∈ s.responses, legalResponse r = true

/-- Two states no response can tell apart (R21, R22, 40_commands.md R68): the same ports and the same `FIN`, and in the
Accepting state the same `H`, `BUFCNT`, `LEN` and meaningful bytes. Nothing is asked of a byte at or above `BUFCNT`,
of any register of a Finalized engine, or of the model's own counter. -/
abbrev SameMessage (s t : State) : Prop :=
  s.inputs = t.inputs ∧ s.responses = t.responses ∧ s.fin = t.fin ∧
    (s.fin = false → s.h = t.h ∧ s.bufcnt = t.bufcnt ∧ s.len = t.len ∧
      ∀ k : Fin 64, k.val < s.bufcnt.toNat → s.buf.byteAt k.val = t.buf.byteAt k.val)

/-- The bytes of `BUF` below `BUFCNT` are those of `B` (R13). -/
abbrev Buffers (s : State) (B : Block) : Prop :=
  ∀ k : Fin 64, k.val < s.bufcnt.toNat → s.buf.byteAt k.val = some (B k)

/-- Commands as the words the assembler emits (30_encoding.md R49, R59), one after the other on the port. -/
def presented (is : List Instr) : List Input := is.map fun i => .command (encode i)

/-- The commands of a message fed in chunks between `INIT` and `FINAL` (40_commands.md R66, R67). -/
def chunkedCommands (chunks : List (List Byte)) : List Instr :=
  .init :: chunks.flatMap updateCommands ++ [.final]

end Sys2Proof.Machine
end

