-- ==== Sys2Proof/Certificates/Slice0/Obligations.lean ====
section
/-! DEFINITION. The statements for the provers. Each docstring names the rule of spec/ it formalises. -/

open Sys2Proof Sys2Proof.Machine

/-! ### Encoding (30_encoding.md) -/

/-- R48, R49, R59: the word the encoder writes is canonical and decodes to the command it was written for, whatever its
operand, both on the port and as a 10-bit number. -/
def Obligations.DecodeOfEncodeIsTheCommand : Prop :=
  ∀ i : Instr, i.wellFormed = true →
    decode (encode i) = i ∧ isCanonical (encode i) = true ∧ decodeAny 10 (encode i).toNat = .ok i

/-- R49, R59: a canonical word is the encoding of the command it decodes to: no bit of it is dropped. -/
def Obligations.EncodeOfDecodeIsTheCanonicalWord : Prop :=
  ∀ w : CommandWord, isCanonical w = true → encode (decode w) = w

/-- R48: a word w selects a row when (w & mask) = match; the four rows partition all words, and the decoder gives the
selected row's command, with arg = CMD[7:0] as the operand of UPDB. -/
def Obligations.EveryWordSelectsExactlyOneRow : Prop :=
  ∀ w : CommandWord,
    (w &&& 0x300#10 = 0x000#10 → decode w = .init) ∧
    (w &&& 0x300#10 = 0x100#10 → decode w = .updb (w.extractLsb' 0 8)) ∧
    (w &&& 0x300#10 = 0x200#10 → decode w = .final) ∧
    (w &&& 0x300#10 = 0x300#10 → decode w = .upd0) ∧
    (w &&& 0x300#10 = 0x000#10 ∨ w &&& 0x300#10 = 0x100#10 ∨ w &&& 0x300#10 = 0x200#10 ∨ w &&& 0x300#10 = 0x300#10)

/-- R49: in format N the command is the same for all 256 values of the ignored byte, and the canonical words are the
ones with that byte zero. -/
def Obligations.IgnoredByteChangesNothing : Prop :=
  (∀ w v : CommandWord, w.extractLsb' 8 2 = v.extractLsb' 8 2 → w.extractLsb' 8 2 ≠ 0b01#2 → decode w = decode v) ∧
    encode .init = 0x000#10 ∧ encode .final = 0x200#10 ∧ encode .upd0 = 0x300#10

/-- R59: words written out from the encoding table. A sanity statement. -/
def Obligations.WrittenOutWordsDecode : Prop :=
  decode 0b0000000000#10 = .init ∧ decode 0b0101100001#10 = .updb 0x61#8 ∧ decode 0b0111111111#10 = .updb 0xFF#8 ∧
    decode 0b1000000000#10 = .final ∧ decode 0b1100000000#10 = .upd0

/-- R50: every 10-bit word is a command, and a word of any other width is no command word (R45). That the decoder refuses
such a word by name, and with it a number of 1024 or more, is the model's choice (log 9): the spec puts what a port does
with one outside itself (R50, U7). -/
def Obligations.OnlyTenBitWordsAreCommands : Prop :=
  (∀ width bits : Nat, width ≠ 10 → decodeAny width bits = .error (.notACommandWord width bits)) ∧
    (∀ bits : Nat, 1024 ≤ bits → decodeAny 10 bits = .error (.notACommandWord 10 bits)) ∧
    (∀ bits : Nat, bits < 1024 → ∃ i, decodeAny 10 bits = .ok i)

/-- R56: a command written in the notation of the assembler assembles to that command alone, for every operand. That the
disassembler writes the byte as two capital hexadecimal digits is the model's choice (log 12). -/
def Obligations.AssemblerReadsWhatDisassemblerWrites : Prop :=
  ∀ i : Instr, assembleLine (disassemble i) = some [i]

/-- R57: UPDATE and HASH with a quoted text of ASCII characters assemble to one UPDB a character in index order, to UPD0
where the text is empty; HASH puts INIT before them and FINAL after. That a semicolon inside the quotes is text and does
not begin the comment of R56, that there are no escapes, and that an ASCII character is one below 128, is the model's
choice (log 12). -/
def Obligations.QuotedTextAssemblesByteByByte : Prop :=
  ∀ cs : List Char, (∀ c ∈ cs, c ≠ '"' ∧ c.toNat < 128) →
    let commands := if cs = [] then [Instr.upd0] else cs.map fun c => Instr.updb (BitVec.ofNat 8 c.toNat)
    assembleLine (['U', 'P', 'D', 'A', 'T', 'E', ' ', '"'] ++ cs ++ ['"']) = some commands ∧
    assembleLine (['H', 'A', 'S', 'H', ' ', '"'] ++ cs ++ ['"']) = some ([Instr.init] ++ commands ++ [Instr.final])

/-! ### The step, reset and rest -/

/-- R39, R58: the step consumes the oldest word pending and is exec of the command it decodes to, on the state with
that word taken off the port. The second clause is about the model's own device (log 4): withFetchWord places a word ahead
of everything pending, where R39 and R58 have words arrive behind it; the next step runs that word, on the state it was
placed in. -/
def Obligations.StepRunsTheDecodedCommand : Prop :=
  (∀ (s : State) (w : CommandWord) (rest : List Input), s.inputs = .command w :: rest →
    (decode w).wellFormed = true → step s = exec (decode w) { s with inputs := rest }) ∧
  (∀ (s : State) (nbits w : Nat), w < 1024 → step (s.withFetchWord nbits w) = exec (decode (BitVec.ofNat 10 w)) s)

/-- R135, R136: the state after reset, and a hardware reset between two commands: the registers of the just-constructed
state, no response. Nothing is said of BUF, whose bytes are unspecified. The registers are those INIT leaves. That the
reset is an input on the port and the responses produced before it stay is the model's form (log 5, log 6). -/
def Obligations.HardwareResetGivesTheJustConstructedState : Prop :=
  (State.reset.h = ⟨0x67452301#32, 0xEFCDAB89#32, 0x98BADCFE#32, 0x10325476#32, 0xC3D2E1F0#32⟩ ∧
    State.reset.bufcnt = 0#6 ∧ State.reset.len = 0#64 ∧ State.reset.fin = false) ∧
  (∀ (s : State) (rest : List Input), s.inputs = .reset :: rest →
    ∃ t, step s = .next t ∧
      t.h = ⟨0x67452301#32, 0xEFCDAB89#32, 0x98BADCFE#32, 0x10325476#32, 0xC3D2E1F0#32⟩ ∧
      t.bufcnt = 0#6 ∧ t.len = 0#64 ∧ t.fin = false ∧ t.inputs = rest ∧ t.responses = s.responses ∧
      ∀ u v, exec .init u = .next v → v.h = t.h ∧ v.bufcnt = t.bufcnt ∧ v.len = t.len ∧ v.fin = t.fin)

/-- R142: an engine with no command pending is at rest: the step changes nothing (the form is the model's: log 4). -/
def Obligations.EngineWithNothingPendingIsAtRest : Prop :=
  ∀ s : State, s.inputs = [] → step s = .next s

/-! ### The four commands (40_commands.md) -/

/-- R61: INIT from any state loads the initialisation vector, empties the buffer, zeroes the counter, clears FIN and
responds OK; no byte of BUF changes, the command port does not, and the model's own counter does not (log 7). -/
def Obligations.InitReinitialisesFromEveryState : Prop :=
  ∀ s : State, ∃ t, exec .init s = .next t ∧
    t.h.h0 = 0x67452301#32 ∧ t.h.h1 = 0xEFCDAB89#32 ∧ t.h.h2 = 0x98BADCFE#32 ∧ t.h.h3 = 0x10325476#32 ∧
    t.h.h4 = 0xC3D2E1F0#32 ∧ t.bufcnt = 0#6 ∧ t.len = 0#64 ∧ t.fin = false ∧
    t.responses = s.responses ++ [responseWord .ok 0#160] ∧
    (∀ k : Nat, t.buf.byteAt k = s.buf.byteAt k) ∧ t.inputs = s.inputs ∧ t.freeIx = s.freeIx

/-- R62: UPDB b. The encoding is 0x100 + b. Finalized: InvalidState, nothing written. Accepting: the byte is stored at
the offset UPDB forms (BUFCNT as it is on entry), LEN advances modulo 2^64, and either the count advances or, when this
is the 64th byte, the block BUF[0..63] is absorbed and the count returns to 0. Every other byte of BUF and every other
register stays, and the model's own counter with them (log 7). B stands for the bytes below BUFCNT, which hold values
(log 2). -/
def Obligations.UpdbAppendsOneByte : Prop :=
  ∀ (s : State) (b : Byte),
    (encode (.updb b)).toNat = 0x100 + b.toNat ∧
    (s.fin = true → exec (.updb b) s = .next s.raiseInvalidState) ∧
    (s.fin = false → s.bufcnt.toNat < 63 → ∃ t, exec (.updb b) s = .next t ∧
      t.h = s.h ∧ t.bufcnt.toNat = s.bufcnt.toNat + 1 ∧ t.len.toNat = (s.len.toNat + 1) % 2 ^ 64 ∧ t.fin = false ∧
      (∀ k : Nat, t.buf.byteAt k = if k = (bufOffset s.bufcnt).val then some b else s.buf.byteAt k) ∧
      t.responses = s.responses ++ [responseWord .ok 0#160] ∧ t.inputs = s.inputs ∧ t.freeIx = s.freeIx) ∧
    (s.fin = false → s.bufcnt.toNat = 63 → ∀ B : Block, Buffers s B → ∃ t, exec (.updb b) s = .next t ∧
      t.h = compressFn s.h (fun k => if k.val = 63 then b else B k) ∧
      t.bufcnt = 0#6 ∧ t.len.toNat = (s.len.toNat + 1) % 2 ^ 64 ∧ t.fin = false ∧
      (∀ k : Nat, t.buf.byteAt k = if k = (bufOffset s.bufcnt).val then some b else s.buf.byteAt k) ∧
      t.responses = s.responses ++ [responseWord .ok 0#160] ∧ t.inputs = s.inputs ∧ t.freeIx = s.freeIx)

/-- R63: UPD0 in Accepting changes nothing but the response stream (nor the model's own counter: log 7); in Finalized it
raises InvalidState. -/
def Obligations.EmptyUpdateChangesNothing : Prop :=
  encode .upd0 = 0x300#10 ∧
  ∀ s : State,
    (s.fin = true → exec .upd0 s = .next s.raiseInvalidState) ∧
    (s.fin = false → ∃ t, exec .upd0 s = .next t ∧
      t.h = s.h ∧ t.bufcnt = s.bufcnt ∧ t.len = s.len ∧ t.fin = false ∧
      (∀ k : Nat, t.buf.byteAt k = s.buf.byteAt k) ∧
      t.responses = s.responses ++ [responseWord .ok 0#160] ∧ t.inputs = s.inputs ∧ t.freeIx = s.freeIx)

/-- R64 with R100 to R107: FINAL in Accepting absorbs one padding block when BUFCNT is at most 55 and two otherwise (the
one with the message bytes and the marker first, then 56 zeros and the length field), sets FIN and responds DIGEST with
the five words, H[4] in the high bits. BUF, BUFCNT and LEN are unspecified afterwards, so nothing is said of them; the
command port stays. In Finalized it raises InvalidState. B stands for the bytes below BUFCNT, which hold values
(log 2). -/
def Obligations.FinalPadsAbsorbsAndAnswersTheDigest : Prop :=
  encode .final = 0x200#10 ∧
  ∀ s : State,
    (s.fin = true → exec .final s = .next s.raiseInvalidState) ∧
    (s.fin = false → ∀ B : Block, Buffers s B → ∃ t, exec .final s = .next t ∧
      (s.bufcnt.toNat ≤ 55 →
        t.h = compressFn s.h (fun k =>
          if k.val < s.bufcnt.toNat then B k else if k.val = s.bufcnt.toNat then 0x80#8
          else if k.val < 56 then 0x00#8 else (s.len <<< 3).extractLsb' (8 * (k.val - 56)) 8)) ∧
      (56 ≤ s.bufcnt.toNat →
        t.h = compressFn
          (compressFn s.h (fun k =>
            if k.val < s.bufcnt.toNat then B k else if k.val = s.bufcnt.toNat then 0x80#8 else 0x00#8))
          (fun k => if k.val < 56 then 0x00#8 else (s.len <<< 3).extractLsb' (8 * (k.val - 56)) 8)) ∧
      t.fin = true ∧
      t.responses = s.responses ++ [responseWord .digest (t.h.h4 ++ t.h.h3 ++ t.h.h2 ++ t.h.h1 ++ t.h.h0)] ∧
      t.inputs = s.inputs)

/-- R117: a command that raises InvalidState writes no state at all; its whole effect is the error response, with no
digest (status 2 in RSP[161:160], zero below it). -/
def Obligations.MisuseWritesNothing : Prop :=
  ∀ (s : State) (i : Instr), s.fin = true → i ≠ .init →
    exec i s = .next { s with responses := s.responses ++ [0b10#2 ++ 0#160] }

/-- R60: the state machine, as its table has it, for every command in both states; it starts in Accepting. In Accepting
the bytes below BUFCNT hold values (log 2). -/
def Obligations.StateMachineOfTheCommands : Prop :=
  State.reset.fin = false ∧
  ∀ (s : State) (i : Instr), (s.fin = false → Readable s) →
    ∃ t r, exec i s = .next t ∧ t.responses = s.responses ++ [r] ∧
      (i = .init → t.fin = false ∧ r.extractLsb' 160 2 = 0b00#2 ∧ t.h = iv ∧ t.bufcnt = 0#6 ∧ t.len = 0#64) ∧
      (∀ b, s.fin = false → i = .updb b → t.fin = false ∧ r.extractLsb' 160 2 = 0b00#2 ∧
        t.buf.byteAt s.bufcnt.toNat = some b) ∧
      (s.fin = false → i = .upd0 → r.extractLsb' 160 2 = 0b00#2 ∧ t = { s with responses := t.responses }) ∧
      (s.fin = false → i = .final → t.fin = true ∧ r.extractLsb' 160 2 = 0b01#2) ∧
      (s.fin = true → i ≠ .init → r.extractLsb' 160 2 = 0b10#2 ∧ t = { s with responses := t.responses })

/-- R51, R52, R54, R115: every command that completes produces exactly one response: ERR_INVALID_STATE exactly when the
command is not INIT and FIN was 1, DIGEST exactly for a FINAL with FIN 0, status 3 never, and all 160 digest bits zero
unless the status is DIGEST. -/
def Obligations.EveryCommandAnswersOneLegalResponse : Prop :=
  ∀ (s t : State) (i : Instr), exec i s = .next t →
    ∃ r : ResponseWord, t.responses = s.responses ++ [r] ∧
      (r.extractLsb' 160 2 = 0b10#2 ↔ s.fin = true ∧ i ≠ .init) ∧
      (r.extractLsb' 160 2 = 0b01#2 ↔ s.fin = false ∧ i = .final) ∧
      r.extractLsb' 160 2 ≠ 0b11#2 ∧
      (r.extractLsb' 160 2 ≠ 0b01#2 → r.extractLsb' 0 160 = 0#160)

/-- R19, R25: which commands write which state, as the access table has it: a register that changed was changed by a
command of its row. The command port is changed by none. -/
def Obligations.OnlyTheListedCommandsWriteEachRegister : Prop :=
  ∀ (s t : State) (i : Instr), exec i s = .next t →
    (t.h ≠ s.h → i = .init ∨ s.fin = false ∧ (i = .final ∨ s.bufcnt = 63#6 ∧ ∃ b, i = .updb b)) ∧
    (t.buf ≠ s.buf → s.fin = false ∧ (i = .final ∨ ∃ b, i = .updb b)) ∧
    (t.bufcnt ≠ s.bufcnt → i = .init ∨ s.fin = false ∧ (i = .final ∨ ∃ b, i = .updb b)) ∧
    (t.len ≠ s.len → i = .init ∨ s.fin = false ∧ (i = .final ∨ ∃ b, i = .updb b)) ∧
    (t.fin ≠ s.fin → i = .init ∨ s.fin = false ∧ i = .final) ∧
    t.inputs = s.inputs

/-- R21, U1: a command stops in one case only: it is an UPDB that fills the buffer or a FINAL, in Accepting, and a byte
below BUFCNT holds no value, which the fault names. No command is refused. That an unwritten byte has no value and its
read stops is the model's form of what R21 asks (log 2). -/
def Obligations.CommandStopsOnlyOnAByteWithoutAValue : Prop :=
  ∀ (s : State) (i : Instr),
    (∀ f, exec i s = .fault f → s.fin = false ∧ (i = .final ∨ s.bufcnt = 63#6 ∧ ∃ b, i = .updb b) ∧
      ∃ k : Nat, f = .bufferByteHasNoValue k ∧ k < s.bufcnt.toNat ∧ s.buf.byteAt k = none) ∧
    (∀ r, exec i s ≠ .refused r)

/-! ### Invariants of every step -/

/-- The state after reset meets the invariant. -/
def Obligations.ResetStateMeetsTheInvariant : Prop := Inv State.reset

/-- R20, R13, R52, R54: from every state that meets the invariant, a step gives a state that meets it: BUF in canonical
form inside its one address space (a form of the model's: log 2), BUFCNT = LEN mod 64 and every buffered byte with a value
in Accepting, and only legal responses. -/
def Obligations.EveryStepKeepsTheInvariant : Prop :=
  ∀ s t : State, Inv s → step s = .next t → Inv t

/-- R142, R128: from every state that meets the invariant the step answers a next state: the engine has no hang and no
failure of its own. -/
def Obligations.NoStepStopsUnderTheInvariant : Prop :=
  ∀ s : State, Inv s → ∃ t, step s = .next t

/-- R21, R22, R68: two states that agree in all but unspecified values (bytes at or above BUFCNT; H, BUF, BUFCNT and LEN
of a Finalized engine; the model's own counter, so every free value) do the same at every step: both answer, with the
same responses, and agree again. Unspecified values never reach a response. -/
def Obligations.UnspecifiedValuesNeverReachAResponse : Prop :=
  ∀ (n : Nat) (s t s' : State), SameMessage s t → Host.Core.run Sys2Proof.core n s = .next s' →
    ∃ t' : State, Host.Core.run Sys2Proof.core n t = .next t' ∧ SameMessage s' t'

/-! ### Whole messages -/

/-- R70: from any state, the command words of HASH m answer OK to all but the last command and the digest RMD160(m) to
the last, whatever m is (the length field wraps at 2^64 bits), and leave the engine Finalized with the final chaining
words. -/
def Obligations.HashCommandsAnswerRmd160 : Prop :=
  ∀ (s : State) (m : List Byte) (rest : List Input), s.inputs = presented (expand (.hash m)) ++ rest →
    ∃ t : State, Host.Core.run Sys2Proof.core (expand (.hash m)).length s = .next t ∧
      t.inputs = rest ∧ t.fin = true ∧ t.h = rmd160Chain m ∧
      t.responses = s.responses ++ List.replicate ((expand (.hash m)).length - 1) (responseWord .ok 0#160) ++
        [responseWord .digest (packDigest (rmd160 m))]

/-- R67: chunk invariance. However a message is split into chunks, empty ones among them, the last response is the
digest of the concatenation and every other response is OK. -/
def Obligations.DigestIsTheSameForEveryChunking : Prop :=
  ∀ (s : State) (chunks : List (List Byte)) (rest : List Input),
    s.inputs = presented (chunkedCommands chunks) ++ rest →
    ∃ t : State, Host.Core.run Sys2Proof.core (chunkedCommands chunks).length s = .next t ∧
      t.inputs = rest ∧
      t.responses = s.responses ++ List.replicate ((chunkedCommands chunks).length - 1) (responseWord .ok 0#160) ++
        [responseWord .digest (packDigest (rmd160 chunks.flatten))]

/-- R66: the commands of one update call all succeed or all fail: in Accepting (with the buffered bytes readable) they
all answer OK and the length counter has counted every byte; in Finalized they all answer ERR_INVALID_STATE and nothing
changes. -/
def Obligations.UpdateCallSucceedsOrFailsAsAWhole : Prop :=
  ∀ (s : State) (bytes : List Byte) (rest : List Input), s.inputs = presented (updateCommands bytes) ++ rest →
    (s.fin = false → Readable s → ∃ t : State,
      Host.Core.run Sys2Proof.core (updateCommands bytes).length s = .next t ∧ t.inputs = rest ∧ t.fin = false ∧
      t.len.toNat = (s.len.toNat + bytes.length) % 2 ^ 64 ∧
      t.responses = s.responses ++ List.replicate (updateCommands bytes).length (responseWord .ok 0#160)) ∧
    (s.fin = true →
      Host.Core.run Sys2Proof.core (updateCommands bytes).length s = .next { s with
        inputs := rest
        responses := s.responses ++
          List.replicate (updateCommands bytes).length (responseWord .errInvalidState 0#160) })

/-- R60, R121: Finalized is terminal but for the reset edge: any number of commands other than INIT, with no hardware
reset, each answer the same error and change nothing, so the state after k errors is the state before them. -/
def Obligations.FinalizedIsTerminalWithoutReset : Prop :=
  ∀ (s : State) (is : List Instr) (rest : List Input), s.fin = true → .init ∉ is →
    s.inputs = presented is ++ rest →
    Host.Core.run Sys2Proof.core is.length s = .next { s with
      inputs := rest
      responses := s.responses ++ List.replicate is.length (responseWord .errInvalidState 0#160) }

/-- R44: instances are independent: a step of one leaves the state of every other as it was, and steps of two instances
in either order give the same chip. -/
def Obligations.InstancesDoNotAffectEachOther : Prop :=
  ∀ (n : Nat) (c : Chip n) (i j : Fin n), i ≠ j →
    (∀ t, c.stepAt i = .next t → t.engines[j] = c.engines[j]) ∧
    (∀ t u, c.stepAt i = .next t → c.stepAt j = .next u →
      ∃ v, t.stepAt j = .next v ∧ u.stepAt i = .next v)

/-! ### The compression function (41_compression.md) -/

/-- R5: bit i of x moves to bit (i + n) mod 32 of rol(x, n). -/
def Obligations.RotationMovesEveryBit : Prop :=
  ∀ (x : Word) (n i : Nat), 0 < n → n < 32 → i < 32 → (rol x n).getLsbD ((i + n) % 32) = x.getLsbD i

/-- R78: the five functions, bit by bit. Their definitions are from general knowledge in the spec (GK1, log 11). -/
def Obligations.BooleanFunctionsBitByBit : Prop :=
  ∀ (x y z : Word) (i : Nat), i < 32 →
    (f1 x y z).getLsbD i = ((x.getLsbD i ^^ y.getLsbD i) ^^ z.getLsbD i) ∧
    (f2 x y z).getLsbD i = (if x.getLsbD i then y.getLsbD i else z.getLsbD i) ∧
    (f3 x y z).getLsbD i = ((x.getLsbD i || !y.getLsbD i) ^^ z.getLsbD i) ∧
    (f4 x y z).getLsbD i = (if z.getLsbD i then x.getLsbD i else y.getLsbD i) ∧
    (f5 x y z).getLsbD i = (x.getLsbD i ^^ (y.getLsbD i || !z.getLsbD i))

/-- R85, R86 (the step formula is from general knowledge in the spec, GK8, log 11): one step of either line, with the
function of the round ascending on the left and mirrored on the right. -/
def Obligations.StepFormulaOfBothLines : Prop :=
  ∀ (X : Fin 16 → Word) (w : Working) (j : Fin 80) (r : Fin 5), r.val = j.val / 16 →
    leftStep X w j =
      { a := w.e
        b := rol (w.a + boolFn r w.b w.c w.d + X (rl j) + klRound r) (sl j) + w.e
        c := w.b
        d := rol w.c 10
        e := w.d } ∧
    rightStep X w j =
      { a := w.e
        b := rol (w.a + boolFn (4 - r) w.b w.c w.d + X (rr j) + krRound r) (sr j) + w.e
        c := w.b
        d := rol w.c 10
        e := w.d }

/-- R85, R86: the direction in which the five words move (GK8, log 11): the word a step writes into B is, four steps
later, in A, rotated left by 10; on both lines, wherever the five steps stand. -/
def Obligations.NewWordReachesAFourStepsLater : Prop :=
  ∀ (X : Fin 16 → Word) (w : Working) (j0 j1 j2 j3 j4 : Fin 80),
    ([j1, j2, j3, j4].foldl (leftStep X) (leftStep X w j0)).a = rol (leftStep X w j0).b 10 ∧
    ([j1, j2, j3, j4].foldl (rightStep X) (rightStep X w j0)).a = rol (rightStep X w j0).b 10

/-- R80 to R84 (GK3 to GK7, log 11): in each round each line uses every message word, every shift is in 5..15, and
the zero constants are those of left round 1 and right round 5. A sanity statement about the tables. -/
def Obligations.TablesKeepTheirStatedShape : Prop :=
  (∀ (r : Fin 5) (i : Fin 16), (∃ j : Fin 80, j.val / 16 = r.val ∧ rl j = i) ∧ ∃ j : Fin 80, j.val / 16 = r.val ∧ rr j = i) ∧
    (∀ j : Fin 80, (5 ≤ sl j ∧ sl j ≤ 15) ∧ 5 ≤ sr j ∧ sr j ≤ 15) ∧
    (∀ r : Fin 5, (klRound r = 0#32 ↔ r = 0) ∧ (krRound r = 0#32 ↔ r = 4))

/-- R87, R88, R91 (the combine pairing is GK9, log 11): CompressFn is two independent runs of 80 steps, each from the
entry chaining words, and the combine: new H[i] is entry word i+1 plus left word i+2 plus right word i+3, indices
modulo 5 and A..E counted from 0. -/
def Obligations.CompressIsTwoIndependentRunsCombined : Prop :=
  ∀ (h : Chain) (B : Block) (l r : Working),
    l = (List.finRange 80).foldl (leftStep (messageWord B)) ⟨h.h0, h.h1, h.h2, h.h3, h.h4⟩ →
    r = (List.finRange 80).foldl (rightStep (messageWord B)) ⟨h.h0, h.h1, h.h2, h.h3, h.h4⟩ →
    ∀ i : Fin 5, (compressFn h B).word i =
      h.word (i + 1) + Chain.word ⟨l.a, l.b, l.c, l.d, l.e⟩ (i + 2) + Chain.word ⟨r.a, r.b, r.c, r.d, r.e⟩ (i + 3)

/-- R87: the result of the 160 steps does not depend on how the two lines are interleaved: every schedule with 80 steps
of each line ends with the same ten words. -/
def Obligations.EveryInterleavingOfTheLinesAgrees : Prop :=
  ∀ (X : Fin 16 → Word) (h : Chain) (schedule : List Line),
    schedule.count .left = 80 → schedule.count .right = 80 →
    (runSchedule X schedule h).left = (List.finRange 80).foldl (leftStep X) (seed h) ∧
    (runSchedule X schedule h).right = (List.finRange 80).foldl (rightStep X) (seed h)

/-! ### Memory and byte order (20_memory.md) -/

/-- R32, R35, R76: four bytes written singly at offsets 4i .. 4i+3 and read as one word give LE32 of them in offset
order, the first byte the least significant; and a block read from BUF parses to the words MemRead(4i, 4) gives. -/
def Obligations.BlockWordsAreLittleEndian : Prop :=
  ∀ (m : Memory) (i : Fin 16) (inside : 4 * i.val + 4 ≤ 64),
    (∀ b0 b1 b2 b3 : Byte,
      ((((m.store (4 * i.val) b0).store (4 * i.val + 1) b1).store (4 * i.val + 2) b2).store (4 * i.val + 3) b3).memRead
        (4 * i.val) 4 inside = .ok (b0.toNat + 2 ^ 8 * b1.toNat + 2 ^ 16 * b2.toNat + 2 ^ 24 * b3.toNat) ∧
      (le32 b0 b1 b2 b3).toNat = b0.toNat + 2 ^ 8 * b1.toNat + 2 ^ 16 * b2.toNat + 2 ^ 24 * b3.toNat) ∧
    (∀ B : Block, m.readBlock = .ok B → m.memRead (4 * i.val) 4 inside = .ok (messageWord B i).toNat)

/-- R6: MemRead after MemWrite of the same n bytes gives the n low bytes of the value, and no byte outside them
changes. -/
def Obligations.MemReadAfterMemWrite : Prop :=
  ∀ (m : Memory) (addr n v : Nat) (inside : addr + n ≤ 64),
    (m.memWrite addr n v inside).memRead addr n inside = .ok (v % 256 ^ n) ∧
    ∀ k : Fin 64, k.val < addr ∨ addr + n ≤ k.val → (m.memWrite addr n v inside).byteAt k.val = m.byteAt k.val

/-- R33, R103: the length field is (LEN × 8) mod 2^64, written little-endian at offsets 56..63, its least significant
byte at the lowest offset; no byte below offset 56 changes. -/
def Obligations.LengthFieldIsLittleEndian : Prop :=
  ∀ (s : State) (len : Word64),
    (lengthField len).toNat = (len.toNat * 8) % 2 ^ 64 ∧
    (∀ i : Nat, i < 8 → (s.writeLengthField (lengthField len)).buf.byteAt (56 + i) =
      some ((lengthField len).extractLsb' (8 * i) 8)) ∧
    (∀ k : Nat, k < 56 → (s.writeLengthField (lengthField len)).buf.byteAt k = s.buf.byteAt k)

/-- Two buffers in canonical form that read alike at every offset are equal data. The form is the model's (log 2). -/
def Obligations.CanonicalBuffersThatReadAlikeAreEqual : Prop :=
  ∀ m m' : Memory, m.wf → m'.wf → (∀ k : Fin 64, m.byteAt k.val = m'.byteAt k.val) → m = m'

/-! ### The digest (42_finalization.md) -/

/-- R106: D[4i + k] = H[i][8k+7 : 8k], 20 bytes in all. -/
def Obligations.SerializerPutsOutEachWordLittleEndian : Prop :=
  ∀ h : Chain, (serialize h).length = 20 ∧
    ∀ (i : Fin 5) (k : Fin 4), (serialize h)[4 * i.val + k.val]? = some ((h.word i).extractLsb' (8 * k.val) 8)

/-- R53, R107: digest byte k is RSP[8k+7:8k], so the field as a number is H[4], H[3], H[2], H[1], H[0] from the high
bits down, and the status stands above it in RSP[161:160]. -/
def Obligations.DigestFieldIsTheWordsConcatenated : Prop :=
  ∀ (h : Chain) (st : Status),
    packDigest (serialize h) = h.h4 ++ h.h3 ++ h.h2 ++ h.h1 ++ h.h0 ∧
    (∀ k : Nat, k < 20 →
      (serialize h)[k]? = some ((responseWord st (packDigest (serialize h))).extractLsb' (8 * k) 8)) ∧
    (responseWord st (packDigest (serialize h))).extractLsb' 160 2 = statusCode st

/-- R71, R109: the padded message fills floor((n + 8) / 64) + 1 blocks, which is the least multiple of 64 bytes that is
at least n + 9. -/
def Obligations.PaddedMessageFillsWholeBlocks : Prop :=
  ∀ m : List Byte,
    (paddedMessage m).length = 64 * ((m.length + 8) / 64 + 1) ∧
    m.length + 9 ≤ (paddedMessage m).length ∧ (paddedMessage m).length < m.length + 9 + 64
end

