-- ==== Sys2Proof/Laws/Memory.lean ====
section
/-! SUPPORT. The buffer: read after write, what each write leaves alone, and that every write keeps the canonical form,
in which equal buffers are equal data. -/

namespace Sys2Proof.Machine

/-- Read after write: the byte written, and every other offset as before. -/
@[simp] theorem byteAt_store (m : Memory) (k : Nat) (b : Byte) (j : Nat) :
    (m.store k b).byteAt j = if j = k then some b else m.byteAt j := by
  induction m with
  | nil => simp [Memory.store, Memory.byteAt, eq_comm]
  | cons c rest ih =>
    obtain ⟨a, x⟩ := c
    simp only [Memory.store]
    split_ifs with h1 h2 h3 h3 h3 <;> simp_all [Memory.byteAt] <;> grind

theorem mem_store {m : Memory} {k : Nat} {b : Byte} {c : Host.Cell} (h : c ∈ m.store k b) :
    c = (k, b) ∨ c ∈ m := by
  induction m with
  | nil => simpa [Memory.store] using h
  | cons d rest ih =>
    obtain ⟨a, x⟩ := d
    simp only [Memory.store] at h
    split_ifs at h <;> simp only [List.mem_cons] at h ⊢ <;> tauto

theorem wf_nil : Memory.wf [] := by simp [Memory.wf]

/-- A write keeps the canonical form. -/
theorem wf_store {m : Memory} (hm : m.wf) (k : Fin 64) (b : Byte) : (m.store k.val b).wf := by
  refine ⟨?_, fun c hc => (mem_store hc).elim (fun h => h ▸ k.isLt) (hm.2 c)⟩
  obtain ⟨hp, -⟩ := hm
  induction m with
  | nil => simp [Memory.store]
  | cons d rest ih =>
    obtain ⟨a, x⟩ := d
    rw [List.pairwise_cons] at hp
    simp only [Memory.store]
    split_ifs with h1 h2
    · refine List.pairwise_cons.2 ⟨fun c hc => ?_, List.pairwise_cons.2 hp⟩
      rcases List.mem_cons.1 hc with rfl | hc
      · exact h1
      · exact h1.trans (hp.1 c hc)
    · exact List.pairwise_cons.2 ⟨fun c hc => h2 ▸ hp.1 c hc, hp.2⟩
    · refine List.pairwise_cons.2 ⟨fun c hc => ?_, ih hp.2⟩
      rcases mem_store hc with rfl | hc
      · show a < k.val
        omega
      · exact hp.1 c hc

/-- The fold under `storeWhere`, over any list of offsets. -/
theorem byteAt_storeFold (f : Fin 64 → Option Byte) (ks : List (Fin 64)) (m : Memory) (j : Fin 64) :
    (ks.foldl (Memory.storeIf f) m).byteAt j.val
      = if j ∈ ks then (f j).or (m.byteAt j.val) else m.byteAt j.val := by
  induction ks generalizing m with
  | nil => simp
  | cons k ks ih =>
    rw [List.foldl_cons, ih]
    by_cases hjk : j = k
    · subst hjk
      cases hf : f j <;> simp [Memory.storeIf, hf]
    · have : j.val ≠ k.val := fun h => hjk (Fin.ext h)
      cases hf : f k <;> simp [Memory.storeIf, hf, hjk, this]

/-- What a write of many offsets leaves in each: its byte where it has one, else what was there. -/
@[simp] theorem byteAt_storeWhere (m : Memory) (f : Fin 64 → Option Byte) (j : Fin 64) :
    (m.storeWhere f).byteAt j.val = (f j).or (m.byteAt j.val) := by
  rw [Memory.storeWhere, byteAt_storeFold, if_pos (List.mem_finRange j)]

theorem wf_storeWhere {m : Memory} (hm : m.wf) (f : Fin 64 → Option Byte) : (m.storeWhere f).wf := by
  unfold Memory.storeWhere
  generalize List.finRange 64 = ks
  induction ks generalizing m with
  | nil => exact hm
  | cons k ks ih =>
    rw [List.foldl_cons]
    apply ih
    cases hf : f k
    · simpa only [Memory.storeIf, hf] using hm
    · simpa only [Memory.storeIf, hf] using wf_store hm k _

@[simp] theorem byteAt_zeroFill (m : Memory) (lo hi : Nat) (j : Fin 64) :
    (m.zeroFill lo hi).byteAt j.val = if lo ≤ j.val ∧ j.val ≤ hi then some 0x00#8 else m.byteAt j.val := by
  rw [Memory.zeroFill, byteAt_storeWhere]
  split_ifs <;> simp

@[simp] theorem byteAt_memWrite (m : Memory) (addr n v : Nat) (h : addr + n ≤ 64) (j : Fin 64) :
    (m.memWrite addr n v h).byteAt j.val
      = if addr ≤ j.val ∧ j.val < addr + n then some (byteOfNat v (j.val - addr)) else m.byteAt j.val := by
  rw [Memory.memWrite, byteAt_storeWhere]
  split_ifs <;> simp

theorem wf_zeroFill {m : Memory} (hm : m.wf) (lo hi : Nat) : (m.zeroFill lo hi).wf := wf_storeWhere hm _

theorem wf_memWrite {m : Memory} (hm : m.wf) (addr n v : Nat) (h : addr + n ≤ 64) : (m.memWrite addr n v h).wf :=
  wf_storeWhere hm _

/-- The free buffer is in canonical form, whatever the free bytes are. -/
theorem wf_freeBuffer (n : Nat) : (freeBuffer n).wf := by
  refine ⟨?_, fun c hc => ?_⟩
  · rw [freeBuffer, List.pairwise_map]
    exact List.pairwise_lt_range
  · obtain ⟨k, hk, rfl⟩ := List.mem_map.1 hc
    exact List.mem_range.1 hk

/-- Below the lowest offset listed nothing has a value. -/
theorem byteAt_eq_none_of_lt {m : Memory} {k : Nat} (h : ∀ c ∈ m, k < c.1) : m.byteAt k = none := by
  induction m with
  | nil => rfl
  | cons c rest ih =>
    obtain ⟨a, x⟩ := c
    have ha : k < a := h (a, x) (by simp)
    rw [Memory.byteAt, if_neg (by omega)]
    exact ih fun c hc => h c (by simp [hc])

/-- When exactly the whole block can be read, and what is read (R12, R21). -/
theorem readBlock_eq_ok {m : Memory} {B : Block} :
    m.readBlock = .ok B ↔ ∀ k : Fin 64, m.byteAt k.val = some (B k) := by
  unfold Memory.readBlock
  split_ifs with h
  · rw [Except.ok.injEq]
    constructor
    · rintro rfl k
      simp
    · intro hB
      funext k
      simp [hB k]
  · simp only [false_iff]
    exact fun hB => h (List.all_eq_true.2 fun k _ => by rw [hB k]; rfl)

end Sys2Proof.Machine
end

