-- ==== Sys2Proof/Laws/State.lean ====
section
/-! SUPPORT. What each named update of the state does to each field: true by definition, so that no proof unfolds a
record update. The proofs are written (rfl), not rfl, so that simp uses them as equations and leaves no comparison of
whole states (and of what `compressFn` computes) to the kernel. -/

namespace Sys2Proof.Machine

variable (s : State)

/-! ### writeBuf -/

@[simp] theorem writeBuf_h (k : Fin 64) (b : Byte) : (s.writeBuf k b).h = s.h := (rfl)
@[simp] theorem writeBuf_buf (k : Fin 64) (b : Byte) : (s.writeBuf k b).buf = s.buf.store k.val b := (rfl)
@[simp] theorem writeBuf_bufcnt (k : Fin 64) (b : Byte) : (s.writeBuf k b).bufcnt = s.bufcnt := (rfl)
@[simp] theorem writeBuf_len (k : Fin 64) (b : Byte) : (s.writeBuf k b).len = s.len := (rfl)
@[simp] theorem writeBuf_fin (k : Fin 64) (b : Byte) : (s.writeBuf k b).fin = s.fin := (rfl)
@[simp] theorem writeBuf_inputs (k : Fin 64) (b : Byte) : (s.writeBuf k b).inputs = s.inputs := (rfl)
@[simp] theorem writeBuf_responses (k : Fin 64) (b : Byte) : (s.writeBuf k b).responses = s.responses := (rfl)
@[simp] theorem writeBuf_freeIx (k : Fin 64) (b : Byte) : (s.writeBuf k b).freeIx = s.freeIx := (rfl)

/-! ### zeroFill -/

@[simp] theorem zeroFill_h (lo hi : Nat) : (s.zeroFill lo hi).h = s.h := (rfl)
@[simp] theorem zeroFill_buf (lo hi : Nat) : (s.zeroFill lo hi).buf = s.buf.zeroFill lo hi := (rfl)
@[simp] theorem zeroFill_bufcnt (lo hi : Nat) : (s.zeroFill lo hi).bufcnt = s.bufcnt := (rfl)
@[simp] theorem zeroFill_len (lo hi : Nat) : (s.zeroFill lo hi).len = s.len := (rfl)
@[simp] theorem zeroFill_fin (lo hi : Nat) : (s.zeroFill lo hi).fin = s.fin := (rfl)
@[simp] theorem zeroFill_inputs (lo hi : Nat) : (s.zeroFill lo hi).inputs = s.inputs := (rfl)
@[simp] theorem zeroFill_responses (lo hi : Nat) : (s.zeroFill lo hi).responses = s.responses := (rfl)
@[simp] theorem zeroFill_freeIx (lo hi : Nat) : (s.zeroFill lo hi).freeIx = s.freeIx := (rfl)

/-! ### writeLengthField -/

@[simp] theorem writeLengthField_h (l : Word64) : (s.writeLengthField l).h = s.h := (rfl)
@[simp] theorem writeLengthField_buf (l : Word64) : (s.writeLengthField l).buf = s.buf.memWrite 56 8 l.toNat (by omega) := by
  rw [State.writeLengthField]
@[simp] theorem writeLengthField_bufcnt (l : Word64) : (s.writeLengthField l).bufcnt = s.bufcnt := (rfl)
@[simp] theorem writeLengthField_len (l : Word64) : (s.writeLengthField l).len = s.len := (rfl)
@[simp] theorem writeLengthField_fin (l : Word64) : (s.writeLengthField l).fin = s.fin := (rfl)
@[simp] theorem writeLengthField_inputs (l : Word64) : (s.writeLengthField l).inputs = s.inputs := (rfl)
@[simp] theorem writeLengthField_responses (l : Word64) : (s.writeLengthField l).responses = s.responses := (rfl)
@[simp] theorem writeLengthField_freeIx (l : Word64) : (s.writeLengthField l).freeIx = s.freeIx := (rfl)

/-! ### loadIv -/

@[simp] theorem loadIv_h : (s.loadIv).h = iv := (rfl)
@[simp] theorem loadIv_buf : (s.loadIv).buf = s.buf := (rfl)
@[simp] theorem loadIv_bufcnt : (s.loadIv).bufcnt = 0#6 := (rfl)
@[simp] theorem loadIv_len : (s.loadIv).len = 0#64 := (rfl)
@[simp] theorem loadIv_fin : (s.loadIv).fin = false := (rfl)
@[simp] theorem loadIv_inputs : (s.loadIv).inputs = s.inputs := (rfl)
@[simp] theorem loadIv_responses : (s.loadIv).responses = s.responses := (rfl)
@[simp] theorem loadIv_freeIx : (s.loadIv).freeIx = s.freeIx := (rfl)

/-! ### hardwareReset -/

@[simp] theorem hardwareReset_h : (s.hardwareReset).h = iv := (rfl)
@[simp] theorem hardwareReset_buf : (s.hardwareReset).buf = [] := (rfl)
@[simp] theorem hardwareReset_bufcnt : (s.hardwareReset).bufcnt = 0#6 := (rfl)
@[simp] theorem hardwareReset_len : (s.hardwareReset).len = 0#64 := (rfl)
@[simp] theorem hardwareReset_fin : (s.hardwareReset).fin = false := (rfl)
@[simp] theorem hardwareReset_inputs : (s.hardwareReset).inputs = s.inputs := (rfl)
@[simp] theorem hardwareReset_responses : (s.hardwareReset).responses = s.responses := (rfl)
@[simp] theorem hardwareReset_freeIx : (s.hardwareReset).freeIx = s.freeIx := (rfl)

/-! ### forgetMessage -/

@[simp] theorem forgetMessage_h : (s.forgetMessage).h = s.h := (rfl)
@[simp] theorem forgetMessage_buf : (s.forgetMessage).buf = freeBuffer s.freeIx := (rfl)
@[simp] theorem forgetMessage_bufcnt : (s.forgetMessage).bufcnt = Config.freeCount s.freeIx := (rfl)
@[simp] theorem forgetMessage_len : (s.forgetMessage).len = Config.freeLength s.freeIx := (rfl)
@[simp] theorem forgetMessage_fin : (s.forgetMessage).fin = s.fin := (rfl)
@[simp] theorem forgetMessage_inputs : (s.forgetMessage).inputs = s.inputs := (rfl)
@[simp] theorem forgetMessage_responses : (s.forgetMessage).responses = s.responses := (rfl)
@[simp] theorem forgetMessage_freeIx : (s.forgetMessage).freeIx = s.freeIx + 1 := (rfl)

/-! ### respond -/

@[simp] theorem respond_h (st : Status) (d : DigestField) : (s.respond st d).h = s.h := (rfl)
@[simp] theorem respond_buf (st : Status) (d : DigestField) : (s.respond st d).buf = s.buf := (rfl)
@[simp] theorem respond_bufcnt (st : Status) (d : DigestField) : (s.respond st d).bufcnt = s.bufcnt := (rfl)
@[simp] theorem respond_len (st : Status) (d : DigestField) : (s.respond st d).len = s.len := (rfl)
@[simp] theorem respond_fin (st : Status) (d : DigestField) : (s.respond st d).fin = s.fin := (rfl)
@[simp] theorem respond_inputs (st : Status) (d : DigestField) : (s.respond st d).inputs = s.inputs := (rfl)
@[simp] theorem respond_responses (st : Status) (d : DigestField) : (s.respond st d).responses = s.responses ++ [responseWord st d] := (rfl)
@[simp] theorem respond_freeIx (st : Status) (d : DigestField) : (s.respond st d).freeIx = s.freeIx := (rfl)

/-! ### raiseInvalidState -/

@[simp] theorem raiseInvalidState_h : (s.raiseInvalidState).h = s.h := (rfl)
@[simp] theorem raiseInvalidState_buf : (s.raiseInvalidState).buf = s.buf := (rfl)
@[simp] theorem raiseInvalidState_bufcnt : (s.raiseInvalidState).bufcnt = s.bufcnt := (rfl)
@[simp] theorem raiseInvalidState_len : (s.raiseInvalidState).len = s.len := (rfl)
@[simp] theorem raiseInvalidState_fin : (s.raiseInvalidState).fin = s.fin := (rfl)
@[simp] theorem raiseInvalidState_inputs : (s.raiseInvalidState).inputs = s.inputs := (rfl)
@[simp] theorem raiseInvalidState_responses : (s.raiseInvalidState).responses = s.responses ++ [responseWord .errInvalidState 0#160] := (rfl)
@[simp] theorem raiseInvalidState_freeIx : (s.raiseInvalidState).freeIx = s.freeIx := (rfl)

/-! ### presentCommand -/

@[simp] theorem presentCommand_h (w : CommandWord) : (s.presentCommand w).h = s.h := (rfl)
@[simp] theorem presentCommand_buf (w : CommandWord) : (s.presentCommand w).buf = s.buf := (rfl)
@[simp] theorem presentCommand_bufcnt (w : CommandWord) : (s.presentCommand w).bufcnt = s.bufcnt := (rfl)
@[simp] theorem presentCommand_len (w : CommandWord) : (s.presentCommand w).len = s.len := (rfl)
@[simp] theorem presentCommand_fin (w : CommandWord) : (s.presentCommand w).fin = s.fin := (rfl)
@[simp] theorem presentCommand_inputs (w : CommandWord) : (s.presentCommand w).inputs = .command w :: s.inputs := (rfl)
@[simp] theorem presentCommand_responses (w : CommandWord) : (s.presentCommand w).responses = s.responses := (rfl)
@[simp] theorem presentCommand_freeIx (w : CommandWord) : (s.presentCommand w).freeIx = s.freeIx := (rfl)

/-! ### acceptByte -/

@[simp] theorem acceptByte_h (b : Byte) : (s.acceptByte b).h = s.h := (rfl)
@[simp] theorem acceptByte_buf (b : Byte) : (s.acceptByte b).buf = s.buf.store s.bufcnt.toNat b := (rfl)
@[simp] theorem acceptByte_bufcnt (b : Byte) : (s.acceptByte b).bufcnt = s.bufcnt := (rfl)
@[simp] theorem acceptByte_len (b : Byte) : (s.acceptByte b).len = s.len + 1#64 := (rfl)
@[simp] theorem acceptByte_fin (b : Byte) : (s.acceptByte b).fin = s.fin := (rfl)
@[simp] theorem acceptByte_inputs (b : Byte) : (s.acceptByte b).inputs = s.inputs := (rfl)
@[simp] theorem acceptByte_responses (b : Byte) : (s.acceptByte b).responses = s.responses := (rfl)
@[simp] theorem acceptByte_freeIx (b : Byte) : (s.acceptByte b).freeIx = s.freeIx := (rfl)

/-! ### setH -/

@[simp] theorem setH_h (v : Chain) : (s.setH v).h = v := (rfl)
@[simp] theorem setH_buf (v : Chain) : (s.setH v).buf = s.buf := (rfl)
@[simp] theorem setH_bufcnt (v : Chain) : (s.setH v).bufcnt = s.bufcnt := (rfl)
@[simp] theorem setH_len (v : Chain) : (s.setH v).len = s.len := (rfl)
@[simp] theorem setH_fin (v : Chain) : (s.setH v).fin = s.fin := (rfl)
@[simp] theorem setH_inputs (v : Chain) : (s.setH v).inputs = s.inputs := (rfl)
@[simp] theorem setH_responses (v : Chain) : (s.setH v).responses = s.responses := (rfl)
@[simp] theorem setH_freeIx (v : Chain) : (s.setH v).freeIx = s.freeIx := (rfl)

/-! ### setCount -/

@[simp] theorem setCount_h (v : BitVec 6) : (s.setCount v).h = s.h := (rfl)
@[simp] theorem setCount_buf (v : BitVec 6) : (s.setCount v).buf = s.buf := (rfl)
@[simp] theorem setCount_bufcnt (v : BitVec 6) : (s.setCount v).bufcnt = v := (rfl)
@[simp] theorem setCount_len (v : BitVec 6) : (s.setCount v).len = s.len := (rfl)
@[simp] theorem setCount_fin (v : BitVec 6) : (s.setCount v).fin = s.fin := (rfl)
@[simp] theorem setCount_inputs (v : BitVec 6) : (s.setCount v).inputs = s.inputs := (rfl)
@[simp] theorem setCount_responses (v : BitVec 6) : (s.setCount v).responses = s.responses := (rfl)
@[simp] theorem setCount_freeIx (v : BitVec 6) : (s.setCount v).freeIx = s.freeIx := (rfl)

/-! ### setLen -/

@[simp] theorem setLen_h (v : Word64) : (s.setLen v).h = s.h := (rfl)
@[simp] theorem setLen_buf (v : Word64) : (s.setLen v).buf = s.buf := (rfl)
@[simp] theorem setLen_bufcnt (v : Word64) : (s.setLen v).bufcnt = s.bufcnt := (rfl)
@[simp] theorem setLen_len (v : Word64) : (s.setLen v).len = v := (rfl)
@[simp] theorem setLen_fin (v : Word64) : (s.setLen v).fin = s.fin := (rfl)
@[simp] theorem setLen_inputs (v : Word64) : (s.setLen v).inputs = s.inputs := (rfl)
@[simp] theorem setLen_responses (v : Word64) : (s.setLen v).responses = s.responses := (rfl)
@[simp] theorem setLen_freeIx (v : Word64) : (s.setLen v).freeIx = s.freeIx := (rfl)

/-! ### setFin -/

@[simp] theorem setFin_h (v : Bool) : (s.setFin v).h = s.h := (rfl)
@[simp] theorem setFin_buf (v : Bool) : (s.setFin v).buf = s.buf := (rfl)
@[simp] theorem setFin_bufcnt (v : Bool) : (s.setFin v).bufcnt = s.bufcnt := (rfl)
@[simp] theorem setFin_len (v : Bool) : (s.setFin v).len = s.len := (rfl)
@[simp] theorem setFin_fin (v : Bool) : (s.setFin v).fin = v := (rfl)
@[simp] theorem setFin_inputs (v : Bool) : (s.setFin v).inputs = s.inputs := (rfl)
@[simp] theorem setFin_responses (v : Bool) : (s.setFin v).responses = s.responses := (rfl)
@[simp] theorem setFin_freeIx (v : Bool) : (s.setFin v).freeIx = s.freeIx := (rfl)

/-! ### setInputs -/

@[simp] theorem setInputs_h (v : List Input) : (s.setInputs v).h = s.h := (rfl)
@[simp] theorem setInputs_buf (v : List Input) : (s.setInputs v).buf = s.buf := (rfl)
@[simp] theorem setInputs_bufcnt (v : List Input) : (s.setInputs v).bufcnt = s.bufcnt := (rfl)
@[simp] theorem setInputs_len (v : List Input) : (s.setInputs v).len = s.len := (rfl)
@[simp] theorem setInputs_fin (v : List Input) : (s.setInputs v).fin = s.fin := (rfl)
@[simp] theorem setInputs_inputs (v : List Input) : (s.setInputs v).inputs = v := (rfl)
@[simp] theorem setInputs_responses (v : List Input) : (s.setInputs v).responses = s.responses := (rfl)
@[simp] theorem setInputs_freeIx (v : List Input) : (s.setInputs v).freeIx = s.freeIx := (rfl)

/-! ### fillOnlyBlock: only `BUF` changes while a padding block is made ready -/

@[simp] theorem fillOnlyBlock_h : s.fillOnlyBlock.h = s.h := by simp [State.fillOnlyBlock]
@[simp] theorem fillOnlyBlock_bufcnt : s.fillOnlyBlock.bufcnt = s.bufcnt := by simp [State.fillOnlyBlock]
@[simp] theorem fillOnlyBlock_len : s.fillOnlyBlock.len = s.len := by simp [State.fillOnlyBlock]
@[simp] theorem fillOnlyBlock_fin : s.fillOnlyBlock.fin = s.fin := by simp [State.fillOnlyBlock]
@[simp] theorem fillOnlyBlock_inputs : s.fillOnlyBlock.inputs = s.inputs := by simp [State.fillOnlyBlock]
@[simp] theorem fillOnlyBlock_responses : s.fillOnlyBlock.responses = s.responses := by simp [State.fillOnlyBlock]
@[simp] theorem fillOnlyBlock_freeIx : s.fillOnlyBlock.freeIx = s.freeIx := by simp [State.fillOnlyBlock]

/-! ### fillFirstBlock: only `BUF` changes while a padding block is made ready -/

@[simp] theorem fillFirstBlock_h : s.fillFirstBlock.h = s.h := by simp [State.fillFirstBlock]
@[simp] theorem fillFirstBlock_bufcnt : s.fillFirstBlock.bufcnt = s.bufcnt := by simp [State.fillFirstBlock]
@[simp] theorem fillFirstBlock_len : s.fillFirstBlock.len = s.len := by simp [State.fillFirstBlock]
@[simp] theorem fillFirstBlock_fin : s.fillFirstBlock.fin = s.fin := by simp [State.fillFirstBlock]
@[simp] theorem fillFirstBlock_inputs : s.fillFirstBlock.inputs = s.inputs := by simp [State.fillFirstBlock]
@[simp] theorem fillFirstBlock_responses : s.fillFirstBlock.responses = s.responses := by simp [State.fillFirstBlock]
@[simp] theorem fillFirstBlock_freeIx : s.fillFirstBlock.freeIx = s.freeIx := by simp [State.fillFirstBlock]

/-! ### fillSecondBlock: only `BUF` changes while a padding block is made ready -/

@[simp] theorem fillSecondBlock_h (l : Word64) : (s.fillSecondBlock l).h = s.h := by simp [State.fillSecondBlock]
@[simp] theorem fillSecondBlock_bufcnt (l : Word64) : (s.fillSecondBlock l).bufcnt = s.bufcnt := by simp [State.fillSecondBlock]
@[simp] theorem fillSecondBlock_len (l : Word64) : (s.fillSecondBlock l).len = s.len := by simp [State.fillSecondBlock]
@[simp] theorem fillSecondBlock_fin (l : Word64) : (s.fillSecondBlock l).fin = s.fin := by simp [State.fillSecondBlock]
@[simp] theorem fillSecondBlock_inputs (l : Word64) : (s.fillSecondBlock l).inputs = s.inputs := by simp [State.fillSecondBlock]
@[simp] theorem fillSecondBlock_responses (l : Word64) : (s.fillSecondBlock l).responses = s.responses := by simp [State.fillSecondBlock]
@[simp] theorem fillSecondBlock_freeIx (l : Word64) : (s.fillSecondBlock l).freeIx = s.freeIx := by simp [State.fillSecondBlock]

/-! ### The outcomes of a command -/

@[simp] theorem isFinalized_eq : s.isFinalized = s.fin := (rfl)

@[simp] theorem exec_init : exec .init s = .next (s.loadIv.respond .ok 0#160) := (rfl)

end Sys2Proof.Machine
end

