-- ==== Sys2Proof/Laws/Ops.lean ====
section
/-! SUPPORT. One lemma per shared operation that says everything it can do, and the inversions of `exec` and `step`. -/

namespace Sys2Proof.Machine

/-! ### The response word -/

@[simp] theorem statusField_responseWord (st : Status) (d : DigestField) :
    statusField (responseWord st d) = statusCode st := by
  exact BitVec.extractLsb'_append_eq_left

@[simp] theorem digestField_responseWord (st : Status) (d : DigestField) :
    digestField (responseWord st d) = d := by
  exact BitVec.extractLsb'_append_eq_right

@[simp] theorem legalResponse_ok : legalResponse (responseWord .ok 0#160) = true := by simp [legalResponse]

@[simp] theorem legalResponse_digest (d : DigestField) : legalResponse (responseWord .digest d) = true := by
  simp [legalResponse]

@[simp] theorem legalResponse_error : legalResponse (responseWord .errInvalidState 0#160) = true := by
  simp [legalResponse]

/-! ### Compress and Pad -/

/-- All `compress` can do when it succeeds: the whole buffer holds values, and only `H` changes (R75). -/
theorem compress_eq_ok {s t : State} :
    s.compress = .ok t ↔
      ∃ B : Block, (∀ k : Fin 64, s.buf.byteAt k.val = some (B k)) ∧ t = s.setH (compressFn s.h B) := by
  unfold State.compress
  cases hB : s.buf.readBlock with
  | error f =>
    simp only [reduceCtorEq, false_iff, not_exists, not_and]
    intro B hk
    rw [readBlock_eq_ok.2 hk] at hB
    cases hB
  | ok B =>
    rw [readBlock_eq_ok] at hB
    constructor
    · intro h
      exact ⟨B, hB, (Except.ok.inj h).symm⟩
    · rintro ⟨C, hC, rfl⟩
      have : C = B := funext fun k => Option.some.inj ((hC k).symm.trans (hB k))
      rw [this]

@[simp] theorem bufOffset_val (c : BitVec 6) : (bufOffset c).val = c.toNat := rfl

/-- What the only padding block holds: the bytes below `BUFCNT`, then the padding of R100. -/
theorem fillOnlyBlock_byteAt {s : State} {B : Block} (hB : Buffers s B) (hn : s.bufcnt.toNat ≤ 55) (k : Fin 64) :
    s.fillOnlyBlock.buf.byteAt k.val = some (onlyPaddingBlock B s.bufcnt.toNat (lengthField s.len) k) := by
  have hk := k.isLt
  have hBk := hB k
  simp only [State.fillOnlyBlock, writeLengthField_buf, zeroFill_buf, writeBuf_buf, byteAt_memWrite, byteAt_zeroFill,
    byteAt_store, bufOffset_val, onlyPaddingBlock]
  split_ifs <;> first | rfl | omega | exact hBk ‹_›

/-- What the first of two padding blocks holds (R100). -/
theorem fillFirstBlock_byteAt {s : State} {B : Block} (hB : Buffers s B) (k : Fin 64) :
    s.fillFirstBlock.buf.byteAt k.val = some (firstPaddingBlock B s.bufcnt.toNat k) := by
  have hk := k.isLt
  have hBk := hB k
  simp only [State.fillFirstBlock, zeroFill_buf, writeBuf_buf, byteAt_zeroFill, byteAt_store, bufOffset_val,
    firstPaddingBlock]
  split_ifs <;> first | rfl | omega | exact hBk ‹_›

/-- What the second of two padding blocks holds (R105): no message byte and no marker. -/
theorem fillSecondBlock_byteAt (s : State) (l : Word64) (k : Fin 64) :
    (s.fillSecondBlock l).buf.byteAt k.val = some (secondPaddingBlock l k) := by
  have hk := k.isLt
  simp only [State.fillSecondBlock, writeLengthField_buf, zeroFill_buf, byteAt_memWrite, byteAt_zeroFill,
    secondPaddingBlock]
  split_ifs <;> first | rfl | omega

/-- `Pad` writes `H` and `BUF` and nothing else (R100). -/
theorem pad_writes {s t : State} (h : s.pad = .ok t) :
    t.bufcnt = s.bufcnt ∧ t.len = s.len ∧ t.fin = s.fin ∧ t.inputs = s.inputs ∧ t.responses = s.responses ∧
      t.freeIx = s.freeIx := by
  unfold State.pad at h
  split_ifs at h
  · obtain ⟨B, -, rfl⟩ := compress_eq_ok.1 h
    simp
  · cases h1 : s.fillFirstBlock.compress with
    | error f => rw [h1] at h; cases h
    | ok u =>
      rw [h1] at h
      obtain ⟨B, -, rfl⟩ := compress_eq_ok.1 h1
      obtain ⟨C, -, rfl⟩ := compress_eq_ok.1 h
      simp

/-- `Pad` with `BUFCNT` ≤ 55: one block (R100, R104). -/
theorem pad_one {s : State} {B : Block} (hB : Buffers s B) (hn : s.bufcnt.toNat ≤ 55) :
    ∃ t, s.pad = .ok t ∧ t.h = compressFn s.h (onlyPaddingBlock B s.bufcnt.toNat (lengthField s.len)) :=
  ⟨_, (if_pos hn).trans (compress_eq_ok.2 ⟨_, fillOnlyBlock_byteAt hB hn, rfl⟩), by
    rw [setH_h, fillOnlyBlock_h]⟩

/-- `Pad` with `BUFCNT` ≥ 56: two blocks, the one with the message bytes first (R100, R104, R105). -/
theorem pad_two {s : State} {B : Block} (hB : Buffers s B) (hn : 56 ≤ s.bufcnt.toNat) :
    ∃ t, s.pad = .ok t ∧ t.h = compressFn (compressFn s.h (firstPaddingBlock B s.bufcnt.toNat))
      (secondPaddingBlock (lengthField s.len)) := by
  have h1 := compress_eq_ok.2 ⟨_, fillFirstBlock_byteAt hB, rfl⟩
  unfold State.pad
  rw [if_neg (by omega), h1]
  refine ⟨_, compress_eq_ok.2 ⟨_, fillSecondBlock_byteAt _ _, rfl⟩, ?_⟩
  rw [setH_h, fillSecondBlock_h, setH_h, fillFirstBlock_h]

/-- The block the buffered bytes belong to; an offset without a value is filled with 0, which no use of it reads. -/
def bufferedBlock (s : State) : Block := fun k => (s.buf.byteAt k.val).getD 0#8

theorem buffers_bufferedBlock {s : State} (h : Readable s) : Buffers s (bufferedBlock s) := fun k hk => by
  obtain ⟨b, hb⟩ := Option.isSome_iff_exists.1 (h k hk)
  rw [bufferedBlock, hb]
  rfl

theorem readable_of_buffers {s : State} {B : Block} (h : Buffers s B) : Readable s := fun k hk => by
  rw [h k hk]
  rfl

/-- `Pad` fails in no state whose buffered bytes have values (R100). -/
theorem pad_completes {s : State} (h : Readable s) : ∃ t, s.pad = .ok t := by
  have hB := buffers_bufferedBlock h
  by_cases hn : s.bufcnt.toNat ≤ 55
  · exact (pad_one hB hn).imp fun _ ht => ht.1
  · exact (pad_two hB (by omega)).imp fun _ ht => ht.1

/-! ### The commands -/

/-- A misused command: the error response and nothing else (R65, R117). -/
theorem exec_finalized {s : State} {i : Instr} (hf : s.fin = true) (hi : i ≠ .init) :
    exec i s = .next s.raiseInvalidState := by
  cases i with
  | init => exact absurd rfl hi
  | updb b => simp [exec, execUpdb, hf]
  | final => simp [exec, execFinal, hf]
  | upd0 => simp [exec, execUpd0, hf]

/-- `UPD0` in Accepting (R63). -/
theorem exec_upd0 {s : State} (hf : s.fin = false) : exec .upd0 s = .next (s.respond .ok 0#160) := by
  simp [exec, execUpd0, hf]

/-- `UPDB` that does not fill the buffer (R62). -/
theorem exec_updb_buffer {s : State} (hf : s.fin = false) (hc : s.bufcnt ≠ 63#6) (b : Byte) :
    exec (.updb b) s = .next (((s.acceptByte b).setCount (s.bufcnt + 1#6)).respond .ok 0#160) := by
  simp [exec, execUpdb, hf, hc]

/-- `UPDB` that fills the buffer (R62): the block is absorbed in the same command. -/
theorem exec_updb_absorb {s : State} {B : Block} (hf : s.fin = false) (hc : s.bufcnt = 63#6) (b : Byte)
    (hB : ∀ k : Fin 64, (s.acceptByte b).buf.byteAt k.val = some (B k)) :
    exec (.updb b) s =
      .next ((((s.acceptByte b).setH (compressFn s.h B)).setCount 0#6).respond .ok 0#160) := by
  simp only [exec, execUpdb, isFinalized_eq, hf, Bool.false_eq_true, if_false, if_pos hc, compress_eq_ok.2 ⟨B, hB, rfl⟩]
  rfl

/-- `FINAL` in Accepting, once `Pad` has run (R64). -/
theorem exec_final {s u : State} (hf : s.fin = false) (hu : s.pad = .ok u) :
    exec .final s =
      .next ((u.forgetMessage.setFin true).respond .digest (packDigest (serialize u.h))) := by
  simp [exec, execFinal, hf, hu]

/-- All a command can do when it answers a next state. -/
theorem exec_cases {i : Instr} {s t : State} (h : exec i s = .next t) :
    (i = .init ∧ t = s.loadIv.respond .ok 0#160) ∨
    (s.fin = true ∧ i ≠ .init ∧ t = s.raiseInvalidState) ∨
    (s.fin = false ∧ i = .upd0 ∧ t = s.respond .ok 0#160) ∨
    (∃ b, s.fin = false ∧ i = .updb b ∧ s.bufcnt ≠ 63#6 ∧
      t = ((s.acceptByte b).setCount (s.bufcnt + 1#6)).respond .ok 0#160) ∨
    (∃ b B, s.fin = false ∧ i = .updb b ∧ s.bufcnt = 63#6 ∧
      (∀ k : Fin 64, (s.acceptByte b).buf.byteAt k.val = some (B k)) ∧
      t = (((s.acceptByte b).setH (compressFn s.h B)).setCount 0#6).respond .ok 0#160) ∨
    (∃ u, s.fin = false ∧ i = .final ∧ s.pad = .ok u ∧
      t = (u.forgetMessage.setFin true).respond .digest (packDigest (serialize u.h))) := by
  by_cases hi : i = .init
  · subst hi
    exact .inl ⟨rfl, (Host.Outcome.next.inj h).symm⟩
  · cases hf : s.fin with
    | true =>
      rw [exec_finalized hf hi] at h
      exact .inr (.inl ⟨rfl, hi, (Host.Outcome.next.inj h).symm⟩)
    | false =>
      cases i with
      | init => exact absurd rfl hi
      | upd0 =>
        rw [exec_upd0 hf] at h
        exact .inr (.inr (.inl ⟨rfl, rfl, (Host.Outcome.next.inj h).symm⟩))
      | updb b =>
        by_cases hc : s.bufcnt = 63#6
        · simp only [exec, execUpdb, isFinalized_eq, hf, Bool.false_eq_true, if_false, if_pos hc] at h
          cases hu : (s.acceptByte b).compress with
          | error f => rw [hu] at h; cases h
          | ok u =>
            rw [hu] at h
            obtain ⟨B, hB, rfl⟩ := compress_eq_ok.1 hu
            exact .inr (.inr (.inr (.inr (.inl ⟨b, B, rfl, rfl, hc, hB, (Host.Outcome.next.inj h).symm⟩))))
        · rw [exec_updb_buffer hf hc] at h
          exact .inr (.inr (.inr (.inl ⟨b, rfl, rfl, hc, (Host.Outcome.next.inj h).symm⟩)))
      | final =>
        cases hu : s.pad with
        | error f =>
          simp only [exec, execFinal, isFinalized_eq, hf, Bool.false_eq_true, if_false, hu] at h
          cases h
        | ok u =>
          rw [exec_final hf hu] at h
          exact .inr (.inr (.inr (.inr (.inr ⟨u, rfl, rfl, rfl, (Host.Outcome.next.inj h).symm⟩))))

/-- All a step can do when it answers a next state: rest, reset, or one command. -/
theorem step_cases {s t : State} (h : step s = .next t) :
    (s.inputs = [] ∧ t = s) ∨
    (∃ rest, s.inputs = .reset :: rest ∧ t = (s.setInputs rest).hardwareReset) ∨
    (∃ w rest, s.inputs = .command w :: rest ∧ exec (decode w) (s.setInputs rest) = .next t) := by
  unfold step State.takeInput at h
  cases hi : s.inputs with
  | nil =>
    rw [hi] at h
    exact .inl ⟨rfl, (Host.Outcome.next.inj h).symm⟩
  | cons i rest =>
    rw [hi] at h
    cases i with
    | reset => exact .inr (.inl ⟨rest, rfl, (Host.Outcome.next.inj h).symm⟩)
    | command w => exact .inr (.inr ⟨w, rest, rfl, h⟩)

end Sys2Proof.Machine
end

