-- ==== Sys2Proof/Laws/PerInstr.lean ====
section
/-! SUPPORT. Statements made for all instructions, one lemma a constructor. -/

namespace Sys2Proof.Laws.RowSelect

/-- The encoding of an instruction selects its own row of the opcode table: (word & mask) = match (30_encoding.md R48). -/
def Statement (i : Instr) : Prop := encode i &&& rowMask = rowMatch i

theorem init : Statement .init := by unfold Statement; decide
theorem updb : ∀ b : Byte, Statement (.updb b) := by unfold Statement; decide
theorem final : Statement .final := by unfold Statement; decide
theorem upd0 : Statement .upd0 := by unfold Statement; decide

end Sys2Proof.Laws.RowSelect
end

