-- ==== Sys2Proof/Tests/Slice0.lean ====
section
/-! SUPPORT. Tests: expected results are from the spec's own encoding tables and from 95_test_vectors.md (named beside each
test), never from the model. Then one witness for each obligation with hypotheses: concrete inputs that meet them. -/

namespace Sys2Proof.Tests

open Sys2Proof Sys2Proof.Machine

/-! ### Helpers -/

/-- An engine after reset that has been given these bytes (at most 63), nothing absorbed. -/
def fed (bytes : List Byte) : State :=
  { State.reset with
    buf := (List.range bytes.length).zip bytes
    bufcnt := BitVec.ofNat 6 bytes.length
    len := BitVec.ofNat 64 bytes.length }

/-- A Finalized engine whose other registers are 5s. -/
def finalized : State :=
  { State.reset with h := ⟨5#32, 5#32, 5#32, 5#32, 5#32⟩, bufcnt := 5#6, len := 5#64, fin := true }

/-- The next state, if there is one. -/
def nextOf : Host.Outcome State Fault Refusal → Option State
  | .next t => some t
  | .fault _ => none
  | .refused _ => none

/-- The fault, if there is one. -/
def faultOf : Host.Outcome State Fault Refusal → Option Fault
  | .next _ => none
  | .fault f => some f
  | .refused _ => none

/-- A block from its 64 bytes. -/
def blockOf (bytes : List Byte) : Block := fun k => bytes.getD k.val 0#8

/-- The block K1 of 95_test_vectors.md section 3. -/
def k1 : Block := blockOf ([0x61#8, 0x62#8, 0x63#8, 0x80#8] ++ List.replicate 52 0#8 ++ [0x18#8] ++ List.replicate 7 0#8)

/-- The digest of "abc" (V3), byte D[0] first. -/
def digestV3 : List Byte :=
  [0x8e#8, 0xb2#8, 0x08#8, 0xf7#8, 0xe0#8, 0x5d#8, 0x98#8, 0x7a#8, 0x9b#8, 0x04#8,
   0x4a#8, 0x8e#8, 0x98#8, 0xc6#8, 0xb0#8, 0x87#8, 0xf1#8, 0x5a#8, 0x0b#8, 0xfc#8]

/-- The digest of 56 times 'a' (section 5, row n = 56), byte D[0] first. -/
def digest56 : List Byte :=
  [0xe7#8, 0x23#8, 0x34#8, 0xb4#8, 0x6c#8, 0x83#8, 0xcc#8, 0x70#8, 0xbe#8, 0xf9#8,
   0x79#8, 0xe1#8, 0x54#8, 0x53#8, 0x70#8, 0x6c#8, 0x95#8, 0xb8#8, 0x88#8, 0xbe#8]

/-! ### WellFormed: each check refuses an ill-formed term -/

theorem test_word_of_9_bits_refused : isCommandWord 9 0 = false := by decide
theorem test_word_of_11_bits_refused : isCommandWord 11 0 = false := by decide
theorem test_value_above_10_bits_refused : isCommandWord 10 1024 = false := by decide
theorem test_word_accepted : isCommandWord 10 1023 = true := by decide
theorem test_ignored_byte_not_canonical : isCanonical 0x012#10 = false := by decide
theorem test_byte_operand_256_refused : isByteOperand 256 = false := by decide
theorem test_byte_operand_255_accepted : isByteOperand 255 = true := by decide

/-! ### Decode: words written out bit by bit from 30_encoding.md R48 and R59 -/

theorem test_decode_init : decode 0b0000000000#10 = .init := by decide
theorem test_decode_updb_a : decode 0b0101100001#10 = .updb 0x61#8 := by decide
theorem test_decode_updb_msb : decode 0b0110000000#10 = .updb 0x80#8 := by decide
theorem test_decode_final : decode 0b1000000000#10 = .final := by decide
theorem test_decode_upd0 : decode 0b1100000000#10 = .upd0 := by decide
theorem test_decode_ignores_low_byte : decode 0b1010101011#10 = .final := by decide
theorem test_encode_updb_ff : encode (.updb 0xFF#8) = 0x1FF#10 := by decide
theorem test_decode_refuses_wide : decodeAny 16 0x161 = .error (.notACommandWord 16 0x161) := by rfl
theorem test_table_word : decodeTableWord 16 0x161 = some (.updb 0x61#8) := by decide
theorem test_table_word_too_wide : decodeTableWord 16 0x400 = none := by decide

/-! ### Assembler: lines of R56 and R57 -/

theorem test_asm_decimal : assembleLine "UPDB 97 ; a comment".toList = some [.updb 0x61#8] := by decide
theorem test_asm_hex : assembleLine "UPDB 0x61".toList = some [.updb 0x61#8] := by decide
theorem test_asm_character : assembleLine "UPDB 'a'".toList = some [.updb 0x61#8] := by decide
theorem test_asm_byte_too_big : assembleLine "UPDB 256".toList = none := by decide
theorem test_asm_operand_missing : assembleLine "UPDB".toList = none := by decide
theorem test_asm_update_empty : assembleLine "UPDATE \"\"".toList = some [.upd0] := by decide
theorem test_asm_update_list : assembleLine "UPDATE 0x01, 2".toList = some [.updb 1#8, .updb 2#8] := by decide
theorem test_asm_hash : assembleLine "HASH \"ab\"".toList = some [.init, .updb 0x61#8, .updb 0x62#8, .final] := by decide

/-! ### Primitives: 95_test_vectors.md section 2 -/

theorem test_rol_wraps : rol 0x12345678#32 10 = 0xD159E048#32 := by decide
theorem test_rol_top_bit : rol 0x80000000#32 5 = 0x00000010#32 := by decide
theorem test_boolean_functions :
    [f1, f2, f3, f4, f5].map (fun f => f 0x0F0F0F0F#32 0x33333333#32 0x55555555#32)
      = [0x69696969#32, 0x53535353#32, 0x9A9A9A9A#32, 0x27272727#32, 0xB4B4B4B4#32] := by decide
theorem test_le32 : le32 0x61#8 0x62#8 0x63#8 0x80#8 = 0x80636261#32 := by decide
theorem test_le32bytes : le32bytes 0xF708B28E#32 = [0x8e#8, 0xb2#8, 0x08#8, 0xf7#8] := by decide
theorem test_le64bytes : le64bytes 0x00000000007A1200#64 =
    [0x00#8, 0x12#8, 0x7a#8, 0x00#8, 0x00#8, 0x00#8, 0x00#8, 0x00#8] := by decide
theorem test_length_field_wraps : lengthField 0x2000000000000003#64 = 0x18#64 := by decide
theorem test_zero_count : [0, 54, 55, 56, 57, 63].map zeroCount = [55, 1, 0, 63, 62, 56] := by decide

/-! ### The constant tables: the checks 41_compression.md gives beside them (R81, R82, R84) -/

/-- Row r (from 0) of a table of 80. -/
def row {α : Type} (t : List α) (r : Nat) : List α := (t.drop (16 * r)).take 16

theorem test_left_rows_follow_rho : ∀ r : Fin 4, row rlTable (r.val + 1) =
    (row rlTable r.val).map fun i => (row rlTable 1).getD i.val 0 := by decide
theorem test_right_rows_follow_rho : ∀ r : Fin 4, row rrTable (r.val + 1) =
    (row rrTable r.val).map fun i => (row rlTable 1).getD i.val 0 := by decide
theorem test_right_first_row_is_pi : row rrTable 0 = (List.finRange 16).map fun i => 9 * i + 5 := by decide
theorem test_rows_are_permutations : ∀ (r : Fin 5) (i : Fin 16), i ∈ row rlTable r.val ∧ i ∈ row rrTable r.val := by decide
theorem test_shifts_in_range : ∀ j : Fin 80, (5 ≤ sl j ∧ sl j ≤ 15) ∧ 5 ≤ sr j ∧ sr j ≤ 15 := by decide

/-! ### Compress: the worked steps of R85 and R86, and K1, K6 of section 3 -/

theorem test_left_step_0 : leftStep (messageWord k1) (seed iv) 0 =
    ⟨0xC3D2E1F0#32, 0x3115FC67#32, 0xEFCDAB89#32, 0xEB73FA62#32, 0x10325476#32⟩ := by decide +kernel
theorem test_right_step_0 : rightStep (messageWord k1) (seed iv) 0 =
    ⟨0xC3D2E1F0#32, 0xDDD63FB8#32, 0xEFCDAB89#32, 0xEB73FA62#32, 0x10325476#32⟩ := by decide +kernel
theorem test_compress_k1 : compressFn iv k1 =
    ⟨0xF708B28E#32, 0x7A985DE0#32, 0x8E4A049B#32, 0x87B0C698#32, 0xFC0B5AF1#32⟩ := by decide +kernel
theorem test_compress_k6 : compressFn ⟨0#32, 0#32, 0#32, 0#32, 0#32⟩ (fun k => BitVec.ofNat 8 k.val) =
    ⟨0xF67707DD#32, 0x844DF397#32, 0x9FDB2A58#32, 0x58DDB16E#32, 0xC1E61D05#32⟩ := by decide +kernel

/-! ### One step of each command -/

/-- R61: INIT out of Finalized. -/
theorem test_init_from_finalized : (nextOf (step (finalized.withFetchWord 16 0x000))).map
    (fun t => (t.h, t.bufcnt, t.len, t.fin, t.responses)) = some (iv, 0#6, 0#64, false, [0#162]) := by decide

/-- R62, the example. -/
theorem test_updb_first_byte : (nextOf (step (State.reset.withFetchWord 16 0x161))).map
    (fun t => (t.h, t.buf.byteAt 0, t.bufcnt, t.len, t.responses)) =
    some (iv, some 0x61#8, 1#6, 1#64, [0#162]) := by decide

/-- Program P2, command 65: the byte that fills the buffer is absorbed. -/
theorem test_updb_absorbs : (nextOf (exec (.updb 0x61#8) (fed (List.replicate 63 0x61#8)))).map
    (fun t => (t.h, t.bufcnt, t.len)) =
    some (⟨0xD42339F0#32, 0xCE5B9F6F#32, 0x2874A075#32, 0xDF67AAF1#32, 0xC6C1BE1C#32⟩, 0#6, 64#64) := by decide +kernel

/-- R63, in Accepting: no state is written. -/
theorem test_upd0 : nextOf (exec .upd0 (fed [1#8, 2#8])) =
    some { fed [1#8, 2#8] with responses := [0#162] } := by decide

/-- R117: UPD0 in Finalized. -/
theorem test_upd0_misuse : nextOf (exec .upd0 finalized) =
    some { finalized with responses := [0b10#2 ++ 0#160] } := by decide

/-- V3: FINAL of "abc", one padding block. -/
theorem test_final_abc : (nextOf (exec .final (fed [0x61#8, 0x62#8, 0x63#8]))).map (fun t => (t.fin, t.responses)) =
    some (true, [0b01#2 ++ packDigest digestV3]) := by decide +kernel

/-- Section 5, n = 56: FINAL with two padding blocks. -/
theorem test_final_two_blocks : (nextOf (exec .final (fed (List.replicate 56 0x61#8)))).map (fun t => t.responses) =
    some [0b01#2 ++ packDigest digest56] := by decide +kernel

/-- Section 5, the transition vector for the wrap of the length counter, on the state given there. -/
theorem test_len_wraps : (nextOf (exec (.updb 0#8)
    { fed (List.replicate 62 0#8) with len := 0xFFFFFFFFFFFFFFFE#64 })).map (fun t => (t.bufcnt, t.len)) =
    some (63#6, 0xFFFFFFFFFFFFFFFF#64) := by decide

/-- R136: a hardware reset gives no response. -/
theorem test_reset_input : (nextOf (step { finalized with inputs := [.reset] })).map
    (fun t => (t.h, t.fin, t.inputs, t.responses)) = some (iv, false, [], []) := by decide

/-- R125: every instance of a chip starts in the reset state. -/
theorem test_chip_reset : (Chip.reset 2 (by decide)).engines[(1 : Fin 2)] = State.reset := by decide

/-! ### Witnesses: concrete inputs that meet the hypotheses of each obligation -/

theorem witness_DecodeOfEncode : (Instr.updb 0xFF#8).wellFormed = true ∧ Instr.final.wellFormed = true := by decide

theorem witness_EncodeOfDecode : isCanonical 0x1FF#10 = true ∧ isCanonical 0x300#10 = true := by decide

theorem witness_EveryWordSelectsExactlyOneRow :
    (0x0FF#10 &&& 0x300#10 = 0x000#10) ∧ (0x100#10 &&& 0x300#10 = 0x100#10) ∧ (0x1FF#10 &&& 0x300#10 = 0x100#10) ∧
    (0x200#10 &&& 0x300#10 = 0x200#10) ∧ (0x2FF#10 &&& 0x300#10 = 0x200#10) ∧ (0x3FF#10 &&& 0x300#10 = 0x300#10) := by
  decide

theorem witness_IgnoredByte : (0x200#10).extractLsb' 8 2 = (0x2FF#10).extractLsb' 8 2 ∧
    (0x200#10).extractLsb' 8 2 ≠ 0b01#2 := by decide

theorem witness_OnlyTenBitWords : (9 : Nat) ≠ 10 ∧ (1024 : Nat) ≤ 1024 ∧ (1023 : Nat) < 1024 := by decide

theorem witness_QuotedText : ∀ c ∈ ['a', ';', '~'], c ≠ '"' ∧ c.toNat < 128 := by simp

/-- An engine with a command and a reset pending. -/
def pending : State := { State.reset with inputs := [.command 0x161#10, .reset] }

theorem witness_StepRuns : pending.inputs = .command 0x161#10 :: [.reset] ∧
    (decode 0x161#10).wellFormed = true ∧ (1023 : Nat) < 1024 := by decide

theorem witness_HardwareReset : ({ finalized with inputs := [.reset] } : State).inputs = .reset :: [] ∧
    (nextOf (exec .init finalized)).isSome = true := by decide

theorem witness_AtRest : State.reset.inputs = [] := by decide

theorem witness_Updb : finalized.fin = true ∧
    ((fed []).fin = false ∧ (fed []).bufcnt.toNat = 0) ∧
    ((fed (List.replicate 62 7#8)).fin = false ∧ (fed (List.replicate 62 7#8)).bufcnt.toNat = 62) ∧
    ((fed (List.replicate 63 7#8)).fin = false ∧ (fed (List.replicate 63 7#8)).bufcnt.toNat = 63 ∧
      Buffers (fed (List.replicate 63 7#8)) fun _ => 7#8) := by decide

theorem witness_Upd0 : finalized.fin = true ∧ State.reset.fin = false := by decide

theorem witness_Final_one_block : Buffers (fed []) (fun _ => 7#8) ∧ (fed []).bufcnt.toNat ≤ 55 ∧
    Buffers (fed (List.replicate 55 7#8)) (fun _ => 7#8) ∧ (fed (List.replicate 55 7#8)).bufcnt.toNat = 55 ∧
    (fed (List.replicate 55 7#8)).fin = false := by decide

theorem witness_Final_two_blocks :
    Buffers (fed (List.replicate 56 7#8)) (fun _ => 7#8) ∧ (fed (List.replicate 56 7#8)).bufcnt.toNat = 56 ∧
    Buffers (fed (List.replicate 63 7#8)) (fun _ => 7#8) ∧ (fed (List.replicate 63 7#8)).bufcnt.toNat = 63 ∧
    (fed (List.replicate 63 7#8)).fin = false := by decide

theorem witness_Misuse : finalized.fin = true ∧ Instr.updb 0#8 ≠ .init ∧ Instr.upd0 ≠ .init ∧ Instr.final ≠ .init := by
  decide

theorem witness_StateMachine : State.reset.fin = false ∧ Readable (fed [7#8]) ∧ finalized.fin = true := by decide

theorem witness_command_completes : ∀ i ∈ [Instr.init, .updb 7#8, .upd0, .final],
    (nextOf (exec i (fed [7#8]))).isSome = true ∧ (nextOf (exec i finalized)).isSome = true := by decide +kernel

/-- The registers that change, change (OnlyTheListedCommandsWriteEachRegister). -/
theorem witness_registers_change : (nextOf (exec .init finalized)).map
    (fun t => decide (t.h ≠ finalized.h ∧ t.bufcnt ≠ finalized.bufcnt ∧ t.len ≠ finalized.len ∧ t.fin ≠ finalized.fin)) =
      some true ∧
    (nextOf (exec (.updb 7#8) (fed []))).map (fun t => decide (t.buf ≠ (fed []).buf)) = some true := by decide

/-- CommandStopsOnlyOnAByteWithoutAValue: five bytes counted, none written. -/
theorem witness_stop : faultOf (exec .final { State.reset with bufcnt := 5#6 }) = some (.bufferByteHasNoValue 0) ∧
    faultOf (exec (.updb 7#8) { State.reset with bufcnt := 63#6 }) = some (.bufferByteHasNoValue 0) := by decide +kernel

/-- One byte buffered, the next pending. -/
def midMessage : State := { fed [7#8] with inputs := [.command 0x161#10] }

theorem witness_invariant : Inv midMessage ∧ Inv finalized ∧ (nextOf (step midMessage)).isSome = true :=
  ⟨⟨by decide, by decide, by simp [midMessage, fed, State.reset]⟩,
    ⟨by decide, by decide, by simp [finalized, State.reset]⟩, by decide⟩

/-- Two engines that differ in the bytes above BUFCNT and in the model's counter, and two Finalized ones. -/
theorem witness_SameMessage : SameMessage pending { pending with buf := [(9, 1#8)], freeIx := 3 } ∧
    SameMessage finalized { finalized with h := iv, bufcnt := 9#6, len := 9#64 } ∧
    (nextOf (Host.Core.run Sys2Proof.core 2 pending)).isSome = true := by decide

theorem witness_Hash : ({ finalized with inputs := presented (expand (.hash [])) ++ [.reset] } : State).inputs =
    presented (expand (.hash [])) ++ [.reset] := by decide

theorem witness_Chunking : ({ finalized with inputs := presented (chunkedCommands [[1#8], [], [2#8, 3#8]]) } : State).inputs =
    presented (chunkedCommands [[1#8], [], [2#8, 3#8]]) ++ [] := by decide

theorem witness_UpdateCall : ({ fed [7#8] with inputs := presented (updateCommands []) } : State).inputs =
    presented (updateCommands []) ++ [] ∧ Readable { fed [7#8] with inputs := presented (updateCommands []) } ∧
    (fed [7#8]).fin = false ∧
    ({ finalized with inputs := presented (updateCommands [1#8, 2#8]) } : State).inputs =
      presented (updateCommands [1#8, 2#8]) ++ [] ∧ finalized.fin = true := by decide

theorem witness_FinalizedIsTerminal : finalized.fin = true ∧ Instr.init ∉ [Instr.final, .upd0, .updb 1#8] ∧
    ({ finalized with inputs := presented [Instr.final, .upd0, .updb 1#8] } : State).inputs =
      presented [Instr.final, .upd0, .updb 1#8] ++ [] := by decide

/-- Two engines on one chip, a command pending at each. -/
def twoEngines : Chip 2 := { engines := #v[pending, pending], atLeastOne := by decide }

theorem witness_Instances : (0 : Fin 2) ≠ 1 ∧ step twoEngines.engines[(0 : Fin 2)] = step pending ∧
    (nextOf (step pending)).isSome = true := ⟨by decide, rfl, by decide⟩

theorem witness_Rotation : 0 < 5 ∧ 5 < 32 ∧ 31 < 32 ∧ (31 + 5) % 32 = 4 := by decide

theorem witness_BooleanFunctions : 0 < 32 ∧ 31 < 32 := by decide

theorem witness_StepFormula : (0 : Fin 5).val = (15 : Fin 80).val / 16 ∧ (1 : Fin 5).val = (16 : Fin 80).val / 16 ∧
    (4 : Fin 5).val = (79 : Fin 80).val / 16 := by decide

theorem witness_Schedule : (List.replicate 80 Line.right ++ List.replicate 80 Line.left).count .left = 80 ∧
    (List.replicate 80 Line.right ++ List.replicate 80 Line.left).count .right = 80 := by
  decide +kernel

theorem witness_BlockWords : 4 * (15 : Fin 16).val + 4 ≤ 64 ∧
    ((fed (List.replicate 63 7#8)).buf.store 63 7#8).readBlock = .ok fun _ => 7#8 :=
  ⟨by decide, readBlock_eq_ok.2 (by decide +kernel)⟩

theorem witness_MemReadAfterMemWrite : 56 + 8 ≤ 64 ∧ 64 + 0 ≤ 64 := by decide

theorem witness_Canonical : Memory.wf [(0, 1#8), (63, 2#8)] ∧
    ∀ k : Fin 64, Memory.byteAt [(0, 1#8), (63, 2#8)] k.val = Memory.byteAt [(0, 1#8), (63, 2#8)] k.val := by decide

end Sys2Proof.Tests
end

section
/-! The rotation of R5, bit by bit: `rol` is the library's `rotateLeft`. -/

namespace Sys2Proof.Machine

theorem rol_eq_rotateLeft (x : Word) {n : Nat} (hn : n < 32) : rol x n = x.rotateLeft n := by
  rw [rol, BitVec.rotateLeft_def, Nat.mod_eq_of_lt hn]

/-- Which bit of x each bit of rol(x, n) is: below n a bit that wrapped round, from n up a bit that moved up by n. -/
theorem getLsbD_rol (x : Word) {n : Nat} (hn : n < 32) {j : Nat} (hj : j < 32) :
    (rol x n).getLsbD j = if j < n then x.getLsbD (32 - n + j) else x.getLsbD (j - n) := by
  rw [rol_eq_rotateLeft x hn, BitVec.getLsbD_rotateLeft, Nat.mod_eq_of_lt hn, decide_eq_true hj, Bool.true_and,
    Bool.cond_decide]

/-- Settles O30: bit i moves up by n, or wraps round when i + n passes the top of the word. -/
theorem rotationMovesEveryBit : Obligations.RotationMovesEveryBit := by
  intro x n i _ hn hi
  rw [getLsbD_rol x hn (Nat.mod_lt _ (by decide))]
  rcases Nat.lt_or_ge (i + n) 32 with hsmall | hwrap
  · have hmod : (i + n) % 32 = i + n := Nat.mod_eq_of_lt hsmall
    rw [hmod, if_neg (by omega), Nat.add_sub_cancel]
  · have hmod : (i + n) % 32 = i + n - 32 := by omega
    have hback : 32 - n + (i + n - 32) = i := by omega
    rw [hmod, if_pos (by omega), hback]

end Sys2Proof.Machine
end

section
/-! MemRead and MemWrite of R6: what a read of several bytes gives, and the little-endian bytes of a number. -/

namespace Sys2Proof.Machine

/-- A read of n bytes, each of which holds a value, gives those values in the order of their offsets. -/
theorem readBytes_eq_ok {m : Memory} {addr n : Nat} {f : Nat → Byte}
    (hf : ∀ i < n, m.byteAt (addr + i) = some (f i)) : m.readBytes addr n = .ok ((List.range n).map f) := by
  induction n generalizing addr f with
  | zero => rfl
  | succ n ih =>
    have hfirst : m.byteAt addr = some (f 0) := hf 0 (Nat.succ_pos n)
    have hrest : m.readBytes (addr + 1) n = .ok ((List.range n).map fun i => f (i + 1)) := by
      refine ih fun i hi => ?_
      rw [Nat.add_assoc, Nat.add_comm 1 i]
      exact hf (i + 1) (Nat.succ_lt_succ hi)
    simp [Memory.readBytes, hfirst, hrest, List.range_succ_eq_map, Except.map, Function.comp_def]

theorem memRead_eq_ok {m : Memory} {addr n : Nat} (inside : addr + n ≤ 64) {f : Nat → Byte}
    (hf : ∀ i < n, m.byteAt (addr + i) = some (f i)) :
    m.memRead addr n inside = .ok (leNat ((List.range n).map f)) := by
  rw [Memory.memRead, readBytes_eq_ok hf]
  rfl

@[simp] theorem byteOfNat_zero_toNat (v : Nat) : (byteOfNat v 0).toNat = v % 256 := by
  simp [byteOfNat]

/-- The bytes of v above the lowest are the bytes of v / 256. -/
theorem byteOfNat_succ (v i : Nat) : byteOfNat v (i + 1) = byteOfNat (v / 256) i := by
  rw [byteOfNat, byteOfNat, Nat.pow_succ', Nat.div_div_eq_div_mul]

/-- The n low bytes of v, put together again, are v modulo 256^n. -/
theorem leNat_map_byteOfNat (v n : Nat) : leNat ((List.range n).map (byteOfNat v)) = v % 256 ^ n := by
  induction n generalizing v with
  | zero => simp [leNat, Nat.mod_one]
  | succ n ih =>
    have htail : ((List.range n).map Nat.succ).map (byteOfNat v) = (List.range n).map (byteOfNat (v / 256)) := by
      simp [byteOfNat_succ]
    rw [List.range_succ_eq_map, List.map_cons, htail, leNat, ih, byteOfNat_zero_toNat, Nat.pow_succ', Nat.mod_mul]

theorem byteAt_memWrite_inside (m : Memory) {addr n : Nat} (v : Nat) (inside : addr + n ≤ 64) {i : Nat} (hi : i < n) :
    (m.memWrite addr n v inside).byteAt (addr + i) = some (byteOfNat v i) := by
  have hwrite := byteAt_memWrite m addr n v inside ⟨addr + i, by omega⟩
  rwa [if_pos ⟨Nat.le_add_right addr i, Nat.add_lt_add_left hi addr⟩, Nat.add_sub_cancel_left] at hwrite

theorem byteAt_memWrite_outside (m : Memory) {addr n : Nat} (v : Nat) (inside : addr + n ≤ 64) {k : Fin 64}
    (hk : k.val < addr ∨ addr + n ≤ k.val) : (m.memWrite addr n v inside).byteAt k.val = m.byteAt k.val := by
  rw [byteAt_memWrite, if_neg (by omega)]

/-- Settles O38: each byte written is read back, and together they are the n low bytes of v. -/
theorem memReadAfterMemWrite : Obligations.MemReadAfterMemWrite := by
  intro m addr n v inside
  refine ⟨?_, fun k hk => byteAt_memWrite_outside m v inside hk⟩
  rw [memRead_eq_ok inside fun i hi => byteAt_memWrite_inside m v inside hi, leNat_map_byteOfNat]

end Sys2Proof.Machine
end

section
/-! The invariant of R20, R13, R52 and R54: it holds at reset, and every input the engine takes keeps it. -/

namespace Sys2Proof.Machine

/-- Settles O21: nothing is buffered, counted or answered. -/
theorem resetStateMeetsTheInvariant : Obligations.ResetStateMeetsTheInvariant := by
  refine ⟨wf_nil, fun _ => ⟨rfl, fun k hk => ?_⟩, fun r hr => ?_⟩
  · exact absurd hk (Nat.not_lt_zero _)
  · exact absurd hr List.not_mem_nil

theorem inv_setInputs {s : State} (h : Inv s) (rest : List Input) : Inv (s.setInputs rest) := h

/-- The invariant says nothing of `H`. -/
theorem inv_setH_setCount {s : State} {c : BitVec 6} (h : Inv (s.setCount c)) (v : Chain) :
    Inv ((s.setH v).setCount c) := h

theorem inv_respond {s : State} (h : Inv s) {st : Status} {d : DigestField}
    (hlegal : legalResponse (responseWord st d) = true) : Inv (s.respond st d) := by
  obtain ⟨hwf, hacc, hresp⟩ := h
  refine ⟨hwf, hacc, fun r hr => ?_⟩
  rw [respond_responses, List.mem_append, List.mem_singleton] at hr
  rcases hr with hold | rfl
  · exact hresp r hold
  · exact hlegal

/-- An empty buffer with a zero length counter asks nothing of `BUF` but its form. -/
theorem inv_of_empty {s : State} (hwf : s.buf.wf) (hcnt : s.bufcnt = 0#6) (hlen : s.len = 0#64)
    (hresp : ∀ r ∈ s.responses, legalResponse r = true) : Inv s := by
  refine ⟨hwf, fun _ => ⟨?_, fun k hk => ?_⟩, hresp⟩
  · rw [CountMatchesLength, hcnt, hlen]; rfl
  · rw [hcnt] at hk
    exact absurd hk (Nat.not_lt_zero _)

theorem inv_loadIv {s : State} (h : Inv s) : Inv s.loadIv := by
  obtain ⟨hwf, -, hresp⟩ := h
  exact inv_of_empty hwf rfl rfl hresp

theorem inv_hardwareReset {s : State} (h : Inv s) : Inv s.hardwareReset := by
  obtain ⟨-, -, hresp⟩ := h
  exact inv_of_empty wf_nil rfl rfl hresp

/-- The byte taken extends the readable bytes by the one at `BUFCNT` (R62). -/
theorem readable_acceptByte_setCount {s : State} (h : Readable s) (b : Byte) {c : BitVec 6}
    (hc : c.toNat ≤ s.bufcnt.toNat + 1) : Readable ((s.acceptByte b).setCount c) := by
  intro k hk
  rw [setCount_bufcnt] at hk
  rw [setCount_buf, acceptByte_buf, byteAt_store]
  split_ifs with hkc
  · rfl
  · exact h k (by omega)

/-- `UPDB` keeps the invariant, whatever it does to `H`: the count follows the length modulo 64, from 63 back to 0. -/
theorem inv_acceptByte_setCount {s : State} (h : Inv s) (hf : s.fin = false) (b : Byte) :
    Inv ((s.acceptByte b).setCount (s.bufcnt + 1#6)) := by
  obtain ⟨hwf, hacc, hresp⟩ := h
  obtain ⟨hcount, hread⟩ := hacc hf
  have hsucc : (s.bufcnt + 1#6).toNat = (s.bufcnt.toNat + 1) % 64 := BitVec.toNat_add _ _
  refine ⟨wf_store hwf (bufOffset s.bufcnt) b, fun _ => ⟨?_, ?_⟩, hresp⟩
  · have hlen : (s.len + 1#64).toNat = (s.len.toNat + 1) % 2 ^ 64 := BitVec.toNat_add _ _
    show (s.bufcnt + 1#6).toNat = (s.len + 1#64).toNat % 64
    rw [hsucc, hlen]
    rw [CountMatchesLength] at hcount
    omega
  · exact readable_acceptByte_setCount hread b (hsucc ▸ Nat.mod_le _ _)

/-- A successful `FINAL` keeps it: the free buffer is canonical, and of a Finalized engine no more is asked. -/
theorem inv_forgetMessage_setFin {s : State} (hresp : ∀ r ∈ s.responses, legalResponse r = true) :
    Inv (s.forgetMessage.setFin true) :=
  ⟨wf_freeBuffer _, fun hf => absurd hf (by simp), hresp⟩

/-- Every command keeps the invariant. -/
theorem exec_keeps_inv {s t : State} {i : Instr} (hinv : Inv s) (h : exec i s = .next t) : Inv t := by
  rcases exec_cases h with ⟨-, rfl⟩ | ⟨-, -, rfl⟩ | ⟨-, -, rfl⟩ | ⟨b, hf, -, -, rfl⟩ | ⟨b, B, hf, -, hfull, -, rfl⟩ |
    ⟨u, hf, -, hu, rfl⟩
  · exact inv_respond (inv_loadIv hinv) legalResponse_ok
  · exact inv_respond hinv legalResponse_error
  · exact inv_respond hinv legalResponse_ok
  · exact inv_respond (inv_acceptByte_setCount hinv hf b) legalResponse_ok
  · have hwrap : s.bufcnt + 1#6 = 0#6 := by rw [hfull]; rfl
    have hnext := inv_acceptByte_setCount hinv hf b
    rw [hwrap] at hnext
    exact inv_respond (inv_setH_setCount hnext _) legalResponse_ok
  · obtain ⟨-, -, -, -, hresponses, -⟩ := pad_writes hu
    obtain ⟨-, -, hresp⟩ := hinv
    exact inv_respond (inv_forgetMessage_setFin (hresponses ▸ hresp)) (legalResponse_digest _)

/-- Settles O22: rest, reset and each command keep the invariant. -/
theorem everyStepKeepsTheInvariant : Obligations.EveryStepKeepsTheInvariant := by
  intro s t hinv h
  rcases step_cases h with ⟨-, rfl⟩ | ⟨rest, -, rfl⟩ | ⟨w, rest, -, hexec⟩
  · exact hinv
  · exact inv_hardwareReset (inv_setInputs hinv rest)
  · exact exec_keeps_inv (inv_setInputs hinv rest) hexec

end Sys2Proof.Machine
end

section
/-! When a command stops (R21, U1): a read of the block finds a byte without a value, and padding and `UPDB` leave no
such byte at or above `BUFCNT`. -/

namespace Sys2Proof.Machine

/-- The fault of a block read names an offset that holds no value. -/
theorem readBlock_error_names_missing {m : Memory} {f : Fault} (h : m.readBlock = .error f) :
    ∃ k : Fin 64, f = .bufferByteHasNoValue k.val ∧ m.byteAt k.val = none := by
  unfold Memory.readBlock at h
  split_ifs at h with hall
  cases hmiss : m.firstMissing with
  | none =>
    refine absurd (List.all_eq_true.2 fun k hk => ?_) hall
    simpa [Option.isSome_iff_ne_none] using List.find?_eq_none.1 hmiss k hk
  | some k =>
    rw [hmiss] at h
    exact ⟨k, (Except.error.inj h).symm, by simpa using List.find?_some hmiss⟩

theorem compress_error_names_missing {s : State} {f : Fault} (h : s.compress = .error f) :
    ∃ k : Fin 64, f = .bufferByteHasNoValue k.val ∧ s.buf.byteAt k.val = none := by
  unfold State.compress at h
  cases hread : s.buf.readBlock with
  | ok B => rw [hread] at h; cases h
  | error g =>
    rw [hread] at h
    exact Except.error.inj h ▸ readBlock_error_names_missing hread

/-- Only a message byte can be missing from the only padding block (R100). -/
theorem fillOnlyBlock_byteAt_eq_none {s : State} (hn : s.bufcnt.toNat ≤ 55) (k : Fin 64) :
    s.fillOnlyBlock.buf.byteAt k.val = none ↔ k.val < s.bufcnt.toNat ∧ s.buf.byteAt k.val = none := by
  have hk := k.isLt
  simp only [State.fillOnlyBlock, writeLengthField_buf, zeroFill_buf, writeBuf_buf, byteAt_memWrite, byteAt_zeroFill,
    byteAt_store, bufOffset_val]
  grind

/-- Only a message byte can be missing from the first of two padding blocks (R100). -/
theorem fillFirstBlock_byteAt_eq_none (s : State) (k : Fin 64) :
    s.fillFirstBlock.buf.byteAt k.val = none ↔ k.val < s.bufcnt.toNat ∧ s.buf.byteAt k.val = none := by
  have hk := k.isLt
  simp only [State.fillFirstBlock, zeroFill_buf, writeBuf_buf, byteAt_zeroFill, byteAt_store, bufOffset_val]
  grind

/-- `Pad` with `BUFCNT` ≥ 56 ends as its first block does: the second one holds no message byte (R105). -/
theorem pad_two_error {s : State} {f : Fault} (hn : ¬ s.bufcnt.toNat ≤ 55) (h : s.pad = .error f) :
    s.fillFirstBlock.compress = .error f := by
  rw [State.pad, if_neg hn] at h
  cases hfirst : s.fillFirstBlock.compress with
  | error g => rwa [hfirst] at h
  | ok u =>
    rw [hfirst] at h
    have hsecond := compress_eq_ok.2 ⟨_, fillSecondBlock_byteAt u (lengthField s.len), rfl⟩
    exact absurd (hsecond.symm.trans h) (by simp)

/-- `Pad` stops at a message byte without a value. -/
theorem pad_error_names_missing {s : State} {f : Fault} (h : s.pad = .error f) :
    ∃ k : Fin 64, f = .bufferByteHasNoValue k.val ∧ k.val < s.bufcnt.toNat ∧ s.buf.byteAt k.val = none := by
  by_cases hn : s.bufcnt.toNat ≤ 55
  · rw [State.pad, if_pos hn] at h
    obtain ⟨k, hf, hnone⟩ := compress_error_names_missing h
    exact ⟨k, hf, (fillOnlyBlock_byteAt_eq_none hn k).1 hnone⟩
  · obtain ⟨k, hf, hnone⟩ := compress_error_names_missing (pad_two_error hn h)
    exact ⟨k, hf, (fillFirstBlock_byteAt_eq_none s k).1 hnone⟩

/-- The byte `UPDB` takes is at `BUFCNT`, so where it fills the buffer a missing byte is one below (R62). -/
theorem acceptByte_error_names_missing {s : State} {b : Byte} {f : Fault} (hfull : s.bufcnt = 63#6)
    (h : (s.acceptByte b).compress = .error f) :
    ∃ k : Fin 64, f = .bufferByteHasNoValue k.val ∧ k.val < s.bufcnt.toNat ∧ s.buf.byteAt k.val = none := by
  obtain ⟨k, hf, hnone⟩ := compress_error_names_missing h
  have hcount : s.bufcnt.toNat = 63 := by rw [hfull]; rfl
  rw [acceptByte_buf, byteAt_store] at hnone
  split_ifs at hnone with hk
  exact ⟨k, hf, by omega, hnone⟩

theorem exec_updb_fault {s : State} {b : Byte} {f : Fault} (hf : s.fin = false) (hfull : s.bufcnt = 63#6)
    (h : (s.acceptByte b).compress = .error f) : exec (.updb b) s = .fault f := by
  simp [exec, execUpdb, hf, hfull, h]

theorem exec_final_fault {s : State} {f : Fault} (hf : s.fin = false) (h : s.pad = .error f) :
    exec .final s = .fault f := by
  simp [exec, execFinal, hf, h]

/-- A command that reads a block runs to the end or stops in that read; every other command runs to the end. -/
theorem exec_next_or_fault (i : Instr) (s : State) :
    (∃ t, exec i s = .next t) ∨
    ∃ f, exec i s = .fault f ∧ s.fin = false ∧
      (i = .final ∧ s.pad = .error f ∨
        ∃ b, i = .updb b ∧ s.bufcnt = 63#6 ∧ (s.acceptByte b).compress = .error f) := by
  by_cases hi : i = .init
  · exact .inl ⟨_, hi ▸ exec_init s⟩
  cases hf : s.fin with
  | true => exact .inl ⟨_, exec_finalized hf hi⟩
  | false =>
    cases i with
    | init => exact absurd rfl hi
    | upd0 => exact .inl ⟨_, exec_upd0 hf⟩
    | updb b =>
      by_cases hfull : s.bufcnt = 63#6
      · cases hread : (s.acceptByte b).compress with
        | error f => exact .inr ⟨f, exec_updb_fault hf hfull hread, rfl, .inr ⟨b, rfl, hfull, hread⟩⟩
        | ok u =>
          obtain ⟨B, hB, -⟩ := compress_eq_ok.1 hread
          exact .inl ⟨_, exec_updb_absorb hf hfull b hB⟩
      · exact .inl ⟨_, exec_updb_buffer hf hfull b⟩
    | final =>
      cases hpad : s.pad with
      | error f => exact .inr ⟨f, exec_final_fault hf hpad, rfl, .inl ⟨rfl, rfl⟩⟩
      | ok u => exact .inl ⟨_, exec_final hf hpad⟩

/-- Settles O20: the read that stops is that of `Pad` or of the block an `UPDB` fills. -/
theorem commandStopsOnlyOnAByteWithoutAValue : Obligations.CommandStopsOnlyOnAByteWithoutAValue := by
  intro s i
  rcases exec_next_or_fault i s with ⟨t, hnext⟩ | ⟨g, hfault, hfin, hread⟩
  · exact ⟨fun f h => absurd (hnext.symm.trans h) (by simp), fun r h => absurd (hnext.symm.trans h) (by simp)⟩
  · refine ⟨fun f h => ?_, fun r h => absurd (hfault.symm.trans h) (by simp)⟩
    obtain rfl : g = f := Host.Outcome.fault.inj (hfault.symm.trans h)
    rcases hread with ⟨rfl, hpad⟩ | ⟨b, rfl, hfull, hblock⟩
    · obtain ⟨k, hmissing⟩ := pad_error_names_missing hpad
      exact ⟨hfin, .inl rfl, k.val, hmissing⟩
    · obtain ⟨k, hmissing⟩ := acceptByte_error_names_missing hfull hblock
      exact ⟨hfin, .inr ⟨hfull, b, rfl⟩, k.val, hmissing⟩

end Sys2Proof.Machine
end

section
/-! The access table of R19, command by command. -/

namespace Sys2Proof.Machine

/-- Settles O19: each way a command can answer writes only the registers of its row. -/
theorem onlyTheListedCommandsWriteEachRegister : Obligations.OnlyTheListedCommandsWriteEachRegister := by
  intro s t i h
  rcases exec_cases h with ⟨rfl, rfl⟩ | ⟨-, -, rfl⟩ | ⟨-, -, rfl⟩ | ⟨b, hf, rfl, -, rfl⟩ | ⟨b, B, hf, rfl, hfull, -, rfl⟩ |
    ⟨u, hf, rfl, hu, rfl⟩
  · simp
  · simp
  · simp
  · simp [hf]
  · simp [hf, hfull]
  · obtain ⟨-, -, -, hinputs, -⟩ := pad_writes hu
    simp [hf, hinputs]

end Sys2Proof.Machine
end

section
/-! Unspecified values never reach a response (R21, R22, R68): `SameMessage` is a simulation, for every command, every
step and every run. -/

namespace Sys2Proof.Machine

/-- `Pad` succeeds only where every message byte has a value (R100). -/
theorem readable_of_pad {s u : State} (h : s.pad = .ok u) : Readable s := by
  intro k hk
  by_contra hsome
  have hnone : s.buf.byteAt k.val = none := by simpa using hsome
  unfold State.pad at h
  split_ifs at h with hn
  · obtain ⟨B, hB, -⟩ := compress_eq_ok.1 h
    exact Option.some_ne_none _ ((hB k).symm.trans ((fillOnlyBlock_byteAt_eq_none hn k).2 ⟨hk, hnone⟩))
  · cases hfirst : s.fillFirstBlock.compress with
    | error f => rw [hfirst] at h; cases h
    | ok v =>
      obtain ⟨B, hB, -⟩ := compress_eq_ok.1 hfirst
      exact Option.some_ne_none _ ((hB k).symm.trans ((fillFirstBlock_byteAt_eq_none s k).2 ⟨hk, hnone⟩))

/-- The chaining words after `Pad` depend on `H`, `BUFCNT`, `LEN` and the message bytes alone. -/
theorem pad_h_congr {s t u : State} {B : Block} (hs : Buffers s B) (ht : Buffers t B) (hh : s.h = t.h)
    (hcnt : s.bufcnt = t.bufcnt) (hlen : s.len = t.len) (hu : s.pad = .ok u) :
    ∃ v, t.pad = .ok v ∧ v.h = u.h := by
  by_cases hn : s.bufcnt.toNat ≤ 55
  · obtain ⟨u', hu', huh⟩ := pad_one hs hn
    obtain ⟨v, hv, hvh⟩ := pad_one ht (hcnt ▸ hn)
    obtain rfl : u = u' := Except.ok.inj (hu.symm.trans hu')
    exact ⟨v, hv, by rw [hvh, huh, hh, hcnt, hlen]⟩
  · obtain ⟨u', hu', huh⟩ := pad_two hs (Nat.lt_of_not_le hn)
    obtain ⟨v, hv, hvh⟩ := pad_two ht (hcnt ▸ Nat.lt_of_not_le hn)
    obtain rfl : u = u' := Except.ok.inj (hu.symm.trans hu')
    exact ⟨v, hv, by rw [hvh, huh, hh, hcnt, hlen]⟩

section
variable {s t : State}

/-! ### What each update makes of two states that no response tells apart -/

theorem sameMessage_setInputs (h : SameMessage s t) (rest : List Input) :
    SameMessage (s.setInputs rest) (t.setInputs rest) := by
  obtain ⟨-, hresp, hfin, hmsg⟩ := h
  exact ⟨rfl, hresp, hfin, hmsg⟩

theorem sameMessage_respond (h : SameMessage s t) (st : Status) (d : DigestField) :
    SameMessage (s.respond st d) (t.respond st d) := by
  obtain ⟨hin, hresp, hfin, hmsg⟩ := h
  exact ⟨hin, by rw [respond_responses, respond_responses, hresp], hfin, hmsg⟩

theorem sameMessage_loadIv (h : SameMessage s t) : SameMessage s.loadIv t.loadIv := by
  obtain ⟨hin, hresp, -, -⟩ := h
  exact ⟨hin, hresp, rfl, fun _ => ⟨rfl, rfl, rfl, fun _ hk => absurd hk (Nat.not_lt_zero _)⟩⟩

theorem sameMessage_hardwareReset (h : SameMessage s t) : SameMessage s.hardwareReset t.hardwareReset := by
  obtain ⟨hin, hresp, -, -⟩ := h
  exact ⟨hin, hresp, rfl, fun _ => ⟨rfl, rfl, rfl, fun _ _ => rfl⟩⟩

/-- One more byte of the message agrees, and with it `LEN` (R62). -/
theorem byteAt_acceptByte_congr (hcnt : s.bufcnt = t.bufcnt)
    (hbytes : ∀ k : Fin 64, k.val < s.bufcnt.toNat → s.buf.byteAt k.val = t.buf.byteAt k.val) (b : Byte)
    (k : Fin 64) (hk : k.val ≤ s.bufcnt.toNat) :
    (s.acceptByte b).buf.byteAt k.val = (t.acceptByte b).buf.byteAt k.val := by
  rw [acceptByte_buf, acceptByte_buf, byteAt_store, byteAt_store, ← hcnt]
  split_ifs with hkc
  · rfl
  · exact hbytes k (by omega)

/-- Taking a byte leaves them alike, with any count that takes in at most the new byte (R62). -/
theorem sameMessage_acceptByte_setCount (h : SameMessage s t) (hf : s.fin = false) (b : Byte) {c : BitVec 6}
    (hc : c.toNat ≤ s.bufcnt.toNat + 1) :
    SameMessage ((s.acceptByte b).setCount c) ((t.acceptByte b).setCount c) := by
  obtain ⟨hin, hresp, hfin, hmsg⟩ := h
  obtain ⟨hh, hcnt, hlen, hbytes⟩ := hmsg hf
  refine ⟨hin, hresp, hfin, fun _ => ⟨hh, rfl, by simp [hlen], fun k hk => ?_⟩⟩
  rw [setCount_bufcnt] at hk
  exact byteAt_acceptByte_congr hcnt hbytes b k (by omega)

theorem sameMessage_setH_setCount {c : BitVec 6} (h : SameMessage (s.setCount c) (t.setCount c)) (v : Chain) :
    SameMessage ((s.setH v).setCount c) ((t.setH v).setCount c) := by
  obtain ⟨hin, hresp, hfin, hmsg⟩ := h
  refine ⟨hin, hresp, hfin, fun hf => ?_⟩
  obtain ⟨-, hcnt, hlen, hbytes⟩ := hmsg hf
  exact ⟨rfl, hcnt, hlen, hbytes⟩

/-- Of two Finalized engines nothing but the ports is compared (R22). -/
theorem sameMessage_forgetMessage_setFin (hin : s.inputs = t.inputs) (hresp : s.responses = t.responses) :
    SameMessage (s.forgetMessage.setFin true) (t.forgetMessage.setFin true) :=
  ⟨hin, hresp, rfl, fun hf => absurd hf (by simp)⟩

/-! ### Commands, steps, runs -/

/-- `UPDB` that does not fill the buffer. -/
theorem sameMessage_exec_updb_buffer (h : SameMessage s t) (hf : s.fin = false) (hc : s.bufcnt ≠ 63#6) (b : Byte) :
    ∃ t', exec (.updb b) t = .next t' ∧
      SameMessage (((s.acceptByte b).setCount (s.bufcnt + 1#6)).respond .ok 0#160) t' := by
  have ⟨_, _, hfin, hmsg⟩ := h
  obtain ⟨-, hcnt, -, -⟩ := hmsg hf
  have hsucc : (s.bufcnt + 1#6).toNat ≤ s.bufcnt.toNat + 1 := by bv_omega
  refine ⟨_, exec_updb_buffer (hfin ▸ hf) (hcnt ▸ hc) b, sameMessage_respond ?_ _ _⟩
  rw [← hcnt]
  exact sameMessage_acceptByte_setCount h hf b hsucc

/-- `UPDB` that fills the buffer: all 64 bytes of the block are message bytes, so both absorb the same one. -/
theorem sameMessage_exec_updb_absorb {B : Block} (h : SameMessage s t) (hf : s.fin = false) (hc : s.bufcnt = 63#6)
    (b : Byte) (hB : ∀ k : Fin 64, (s.acceptByte b).buf.byteAt k.val = some (B k)) :
    ∃ t', exec (.updb b) t = .next t' ∧
      SameMessage ((((s.acceptByte b).setH (compressFn s.h B)).setCount 0#6).respond .ok 0#160) t' := by
  have ⟨_, _, hfin, hmsg⟩ := h
  obtain ⟨hh, hcnt, -, hbytes⟩ := hmsg hf
  have hfull : s.bufcnt.toNat = 63 := by rw [hc]; rfl
  have hBt : ∀ k : Fin 64, (t.acceptByte b).buf.byteAt k.val = some (B k) := fun k =>
    (byteAt_acceptByte_congr hcnt hbytes b k (by omega)).symm.trans (hB k)
  refine ⟨_, exec_updb_absorb (hfin ▸ hf) (hcnt ▸ hc) b hBt, sameMessage_respond ?_ _ _⟩
  rw [← hh]
  exact sameMessage_setH_setCount (sameMessage_acceptByte_setCount h hf b (Nat.zero_le _)) _

/-- `FINAL`: both pad the same message bytes, so both answer the same digest. -/
theorem sameMessage_exec_final {u : State} (h : SameMessage s t) (hf : s.fin = false) (hu : s.pad = .ok u) :
    ∃ t', exec .final t = .next t' ∧
      SameMessage ((u.forgetMessage.setFin true).respond .digest (packDigest (serialize u.h))) t' := by
  obtain ⟨hin, hresp, hfin, hmsg⟩ := h
  obtain ⟨hh, hcnt, hlen, hbytes⟩ := hmsg hf
  have hBs := buffers_bufferedBlock (readable_of_pad hu)
  have hBt : Buffers t (bufferedBlock s) := fun k hk => by
    rw [← hcnt] at hk
    exact (hbytes k hk).symm.trans (hBs k hk)
  obtain ⟨v, hv, hvh⟩ := pad_h_congr hBs hBt hh hcnt hlen hu
  obtain ⟨-, -, -, huin, huresp, -⟩ := pad_writes hu
  obtain ⟨-, -, -, hvin, hvresp, -⟩ := pad_writes hv
  refine ⟨_, exec_final (hfin ▸ hf) hv, ?_⟩
  rw [hvh]
  refine sameMessage_respond (sameMessage_forgetMessage_setFin ?_ ?_) _ _
  · rw [huin, hvin, hin]
  · rw [huresp, hvresp, hresp]

/-- Every command keeps two states alike that no response tells apart. -/
theorem sameMessage_exec {s' : State} {i : Instr} (h : SameMessage s t) (hs : exec i s = .next s') :
    ∃ t', exec i t = .next t' ∧ SameMessage s' t' := by
  have ⟨_, _, hfin, _⟩ := h
  rcases exec_cases hs with ⟨rfl, rfl⟩ | ⟨hf, hi, rfl⟩ | ⟨hf, rfl, rfl⟩ | ⟨b, hf, rfl, hc, rfl⟩ |
    ⟨b, B, hf, rfl, hc, hB, rfl⟩ | ⟨u, hf, rfl, hu, rfl⟩
  · exact ⟨_, exec_init t, sameMessage_respond (sameMessage_loadIv h) _ _⟩
  · exact ⟨_, exec_finalized (hfin ▸ hf) hi, sameMessage_respond h _ _⟩
  · exact ⟨_, exec_upd0 (hfin ▸ hf), sameMessage_respond h _ _⟩
  · exact sameMessage_exec_updb_buffer h hf hc b
  · exact sameMessage_exec_updb_absorb h hf hc b hB
  · exact sameMessage_exec_final h hf hu

end

theorem step_of_no_input {s : State} (h : s.inputs = []) : step s = .next s := by
  rw [step, State.takeInput, h]
  rfl

theorem step_of_reset {s : State} {rest : List Input} (h : s.inputs = .reset :: rest) :
    step s = .next (s.setInputs rest).hardwareReset := by
  rw [step, State.takeInput, h]

theorem step_of_command {s : State} {w : CommandWord} {rest : List Input} (h : s.inputs = .command w :: rest) :
    step s = exec (decode w) (s.setInputs rest) := by
  rw [step, State.takeInput, h]

/-- Both take the same input off the port, and every input keeps them alike. -/
theorem sameMessage_step {s t s' : State} (h : SameMessage s t) (hs : step s = .next s') :
    ∃ t', step t = .next t' ∧ SameMessage s' t' := by
  have ⟨hin, _⟩ := h
  rcases step_cases hs with ⟨hnone, rfl⟩ | ⟨rest, hreset, rfl⟩ | ⟨w, rest, hcommand, hexec⟩
  · exact ⟨t, step_of_no_input (hin ▸ hnone), h⟩
  · exact ⟨_, step_of_reset (hin ▸ hreset), sameMessage_hardwareReset (sameMessage_setInputs h rest)⟩
  · rw [step_of_command (hin ▸ hcommand)]
    exact sameMessage_exec (sameMessage_setInputs h rest) hexec

/-- A run of `n + 1` steps is a step and a run of `n`. -/
theorem run_succ_eq_next {M : Host.Core} {n : Nat} {s u : M.State} :
    M.run (n + 1) s = .next u ↔ ∃ t, M.step s = .next t ∧ M.run n t = .next u := by
  rw [Host.Core.run]
  cases M.step s <;> simp

/-- Settles O24, by induction on the number of steps. -/
theorem unspecifiedValuesNeverReachAResponse : Obligations.UnspecifiedValuesNeverReachAResponse := by
  intro n
  induction n with
  | zero =>
    intro s t s' h hrun
    obtain rfl : s = s' := Host.Outcome.next.inj hrun
    exact ⟨t, rfl, h⟩
  | succ n ih =>
    intro s t s' h hrun
    obtain ⟨s₁, hstep, hrest⟩ := run_succ_eq_next.1 hrun
    obtain ⟨t₁, hstep', h₁⟩ := sameMessage_step h hstep
    obtain ⟨t', hrest', h'⟩ := ih s₁ t₁ s' h₁ hrest
    exact ⟨t', run_succ_eq_next.2 ⟨t₁, hstep', hrest'⟩, h'⟩

end Sys2Proof.Machine
end

section
/-! Noninterference of the engines of a chip (R44, R125): `stepAt` writes the slot of its own engine alone. -/

namespace Sys2Proof.Machine

/-- All `stepAt` can do when it answers a next chip: engine i steps, and its new state takes the place of the old. -/
theorem stepAt_eq_next {n : Nat} {c t : Chip n} {i : Fin n} :
    c.stepAt i = .next t ↔ ∃ s, step c.engines[i] = .next s ∧ t = { c with engines := c.engines.set i s } := by
  unfold Chip.stepAt
  cases step c.engines[i] <;> simp [eq_comm]

theorem stepAt_getElem_ne {n : Nat} {c t : Chip n} {i j : Fin n} (hij : i ≠ j) (h : c.stepAt i = .next t) :
    t.engines[j] = c.engines[j] := by
  obtain ⟨s, -, rfl⟩ := stepAt_eq_next.1 h
  exact Vector.getElem_set_ne i.isLt j.isLt (Fin.val_ne_of_ne hij)

/-- Settles O29: each engine steps from the same state in either order, and writes to two slots commute. -/
theorem instancesDoNotAffectEachOther : Obligations.InstancesDoNotAffectEachOther := by
  intro n c i j hij
  refine ⟨fun t ht => stepAt_getElem_ne hij ht, fun t u ht hu => ?_⟩
  have hj := stepAt_getElem_ne hij ht
  have hi := stepAt_getElem_ne hij.symm hu
  obtain ⟨si, hsi, rfl⟩ := stepAt_eq_next.1 ht
  obtain ⟨sj, hsj, rfl⟩ := stepAt_eq_next.1 hu
  have hcomm := Vector.set_comm si sj (xs := c.engines) (hi := i.isLt) (hj := j.isLt) (Fin.val_ne_of_ne hij)
  refine ⟨_, stepAt_eq_next.2 ⟨sj, by rw [hj, hsj], rfl⟩, stepAt_eq_next.2 ⟨si, by rw [hi, hsi], ?_⟩⟩
  rw [hcomm]

end Sys2Proof.Machine
end

section
/-! Byte order of the words of a block (R32, R76) and of the length field (R33, R103). -/

namespace Sys2Proof.Machine

/-- Two words laid side by side, as a number: the left one counts in units above the right one. -/
theorem toNat_append_eq_add {v w : Nat} (x : BitVec v) (y : BitVec w) :
    (x ++ y).toNat = 2 ^ w * x.toNat + y.toNat := by
  rw [BitVec.toNat_append, ← Nat.shiftLeft_add_eq_or_of_lt y.isLt, Nat.shiftLeft_eq, Nat.mul_comm]

/-- `LE32` of R5 and the little-endian number of R6 agree. -/
theorem le32_toNat (b0 b1 b2 b3 : Byte) : (le32 b0 b1 b2 b3).toNat = leNat [b0, b1, b2, b3] := by
  simp only [le32, leNat, toNat_append_eq_add]
  omega

theorem leNat_four (b0 b1 b2 b3 : Byte) :
    leNat [b0, b1, b2, b3] = b0.toNat + 2 ^ 8 * b1.toNat + 2 ^ 16 * b2.toNat + 2 ^ 24 * b3.toNat := by
  simp only [leNat]
  omega

/-- A read of four bytes, each of which holds a value, is `LE32` of them in the order of their offsets. -/
theorem memRead_word {m : Memory} {addr : Nat} (inside : addr + 4 ≤ 64) {b0 b1 b2 b3 : Byte}
    (h0 : m.byteAt addr = some b0) (h1 : m.byteAt (addr + 1) = some b1) (h2 : m.byteAt (addr + 2) = some b2)
    (h3 : m.byteAt (addr + 3) = some b3) : m.memRead addr 4 inside = .ok (le32 b0 b1 b2 b3).toNat := by
  rw [le32_toNat]
  simp [Memory.memRead, Memory.readBytes, h0, h1, h2, h3, Except.map]

/-- Settles O37: both reads are of four bytes that hold values, the stored ones or those of the block. -/
theorem blockWordsAreLittleEndian : Obligations.BlockWordsAreLittleEndian := by
  intro m i inside
  refine ⟨fun b0 b1 b2 b3 => ?_, fun B hB => ?_⟩
  · have hword := (le32_toNat b0 b1 b2 b3).trans (leNat_four b0 b1 b2 b3)
    refine ⟨?_, hword⟩
    rw [← hword]
    apply memRead_word <;> simp
  · have hbytes := readBlock_eq_ok.1 hB
    exact memRead_word inside (hbytes ⟨4 * i.val, _⟩) (hbytes ⟨4 * i.val + 1, _⟩) (hbytes ⟨4 * i.val + 2, _⟩)
      (hbytes ⟨4 * i.val + 3, _⟩)

/-- Byte i of a value, cut arithmetically or as a field of its bits. -/
theorem byteOfNat_toNat {w : Nat} (v : BitVec w) (i : Nat) : byteOfNat v.toNat i = v.extractLsb' (8 * i) 8 := by
  rw [byteOfNat, BitVec.extractLsb', Nat.shiftRight_eq_div_pow, Nat.pow_mul]

theorem lengthField_toNat (len : Word64) : (lengthField len).toNat = len.toNat * 8 % 2 ^ 64 := by
  rw [lengthField, BitVec.toNat_shiftLeft, Nat.shiftLeft_eq]

/-- Settles O39: the write of 8 bytes at offset 56, byte by byte. -/
theorem lengthFieldIsLittleEndian : Obligations.LengthFieldIsLittleEndian := by
  intro s len
  refine ⟨lengthField_toNat len, fun i hi => ?_, fun k hk => ?_⟩
  · rw [writeLengthField_buf, byteAt_memWrite_inside _ _ _ hi, byteOfNat_toNat]
  · rw [writeLengthField_buf]
    exact byteAt_memWrite_outside s.buf _ _ (k := ⟨k, by omega⟩) (.inl hk)

end Sys2Proof.Machine
end

section
/-! Extensionality of buffers in canonical form (R30). -/

namespace Sys2Proof.Machine

/-- In a list with rising offsets the cells are exactly what the reads give. -/
theorem mem_iff_byteAt {m : Memory} (hm : m.Pairwise fun c d => c.1 < d.1) (k : Nat) (b : Byte) :
    (k, b) ∈ m ↔ m.byteAt k = some b := by
  induction m with
  | nil => simp [Memory.byteAt]
  | cons c rest ih =>
    obtain ⟨a, x⟩ := c
    obtain ⟨hlow, hrest⟩ := List.pairwise_cons.1 hm
    by_cases hak : a = k
    · subst hak
      have habsent : (a, b) ∉ rest := fun hmem => Nat.lt_irrefl a (hlow _ hmem)
      simp [Memory.byteAt, habsent, eq_comm]
    · simp [Memory.byteAt, hak, Ne.symm hak, ih hrest]

theorem byteAt_eq_none_of_wf {m : Memory} (hm : m.wf) {k : Nat} (hk : 64 ≤ k) : m.byteAt k = none := by
  obtain ⟨hrising, hinside⟩ := hm
  refine Option.eq_none_iff_forall_ne_some.2 fun b hb => ?_
  exact absurd (hinside _ ((mem_iff_byteAt hrising k b).2 hb)) (Nat.not_lt.2 hk)

/-- Settles O40: the reads fix the cells, and the cells of a list with rising offsets fix the list. -/
theorem canonicalBuffersThatReadAlikeAreEqual : Obligations.CanonicalBuffersThatReadAlikeAreEqual := by
  intro m m' hm hm' hread
  have hall : ∀ k : Nat, m.byteAt k = m'.byteAt k := fun k => by
    rcases Nat.lt_or_ge k 64 with hk | hk
    · exact hread ⟨k, hk⟩
    · rw [byteAt_eq_none_of_wf hm hk, byteAt_eq_none_of_wf hm' hk]
  obtain ⟨hrising, -⟩ := hm
  obtain ⟨hrising', -⟩ := hm'
  refine List.Pairwise.eq_of_mem_iff (r := Prod.fst ⁻¹'o (· < ·)) hrising hrising' fun ⟨k, b⟩ => ?_
  rw [mem_iff_byteAt hrising, mem_iff_byteAt hrising', hall k]

end Sys2Proof.Machine
end

section
/-! The step that runs a command word (R39, R58), and the word `withFetchWord` presents. -/

namespace Sys2Proof.Machine

/-- Taking the presented word off the port gives back the state it was placed in. -/
@[simp] theorem presentCommand_setInputs (s : State) (w : CommandWord) :
    (s.presentCommand w).setInputs s.inputs = s := (rfl)

theorem withFetchWord_of_lt (s : State) (nbits : Nat) {w : Nat} (hw : w < 1024) :
    s.withFetchWord nbits w = s.presentCommand (BitVec.ofNat 10 w) := by
  have hword : isCommandWord 10 w = true := by simpa [isCommandWord] using hw
  rw [State.withFetchWord, if_pos hword]

/-- Settles O9: the word presented is the oldest one pending, so the first clause covers the second. -/
theorem stepRunsTheDecodedCommand : Obligations.StepRunsTheDecodedCommand := by
  refine ⟨fun s w rest hs _ => step_of_command hs, fun s nbits w hw => ?_⟩
  rw [withFetchWord_of_lt s nbits hw, step_of_command (presentCommand_inputs s _), presentCommand_setInputs]

end Sys2Proof.Machine
end

section
/-! Encoder and decoder (R48, R49, R59): a word is `opc` above the low byte, and the decoder asks `opc` first. -/

namespace Sys2Proof

/-! ### The two fields of a word (R45, R46) -/

@[simp] theorem opcField_append (o : BitVec 2) (b : Byte) : opcField (o ++ b) = o :=
  BitVec.extractLsb'_append_eq_left

@[simp] theorem argField_append (o : BitVec 2) (b : Byte) : argField (o ++ b) = b :=
  BitVec.extractLsb'_append_eq_right

theorem opcField_append_argField (w : CommandWord) : opcField w ++ argField w = w := by
  rw [opcField, argField, BitVec.extractLsb'_append_extractLsb'_eq_extractLsb' (by rfl)]
  exact BitVec.extractLsb'_eq_self

theorem eq_of_opcField_eq {w : CommandWord} {o : BitVec 2} (h : opcField w = o) : w = o ++ argField w := by
  rw [← h, opcField_append_argField]

/-- The four rows of the opcode table (R48). -/
theorem opc_cases : ∀ o : BitVec 2, o = 0b00#2 ∨ o = 0b01#2 ∨ o = 0b10#2 ∨ o = 0b11#2 := by decide

/-! ### What the decoder answers in each row, and the encoder (R48, R59) -/

theorem decode_append_init (ign : Byte) : decode (0b00#2 ++ ign) = .init := by simp [decode]
theorem decode_append_updb (b : Byte) : decode (0b01#2 ++ b) = .updb b := by simp [decode]
theorem decode_append_final (ign : Byte) : decode (0b10#2 ++ ign) = .final := by simp [decode]
theorem decode_append_upd0 (ign : Byte) : decode (0b11#2 ++ ign) = .upd0 := by simp [decode]

theorem decode_encode (i : Instr) : decode (encode i) = i := by
  cases i with
  | init => exact decode_append_init _
  | updb b => exact decode_append_updb b
  | final => exact decode_append_final _
  | upd0 => exact decode_append_upd0 _

/-- Re-encoding keeps `opc` and clears the byte that format N ignores (R49). -/
theorem encode_decode (w : CommandWord) :
    encode (decode w) = opcField w ++ if opcField w = 0b01#2 then argField w else 0#8 := by
  rcases opc_cases (opcField w) with ho | ho | ho | ho <;> simp [decode, encode, ho]

theorem isCanonical_iff (w : CommandWord) : isCanonical w = true ↔ opcField w = 0b01#2 ∨ argField w = 0#8 := by
  simp [isCanonical, opcField, argField]

theorem isCanonical_encode (i : Instr) : isCanonical (encode i) = true := by
  rw [isCanonical_iff]
  cases i with
  | updb b => exact .inl (opcField_append _ _)
  | init | final | upd0 => exact .inr (argField_append _ _)

/-! ### The decoder of words of any width (R50) -/

theorem isCommandWord_iff (width bits : Nat) : isCommandWord width bits = true ↔ width = 10 ∧ bits < 1024 := by
  simp [isCommandWord]

theorem decodeAny_of_lt {bits : Nat} (h : bits < 1024) : decodeAny 10 bits = .ok (decode (BitVec.ofNat 10 bits)) :=
  if_pos ((isCommandWord_iff 10 bits).2 ⟨rfl, h⟩)

theorem decodeAny_of_not {width bits : Nat} (h : ¬ (width = 10 ∧ bits < 1024)) :
    decodeAny width bits = .error (.notACommandWord width bits) :=
  if_neg (mt (isCommandWord_iff width bits).1 h)

theorem decodeAny_toNat (w : CommandWord) : decodeAny 10 w.toNat = .ok (decode w) := by
  rw [decodeAny_of_lt w.isLt, BitVec.ofNat_toNat, BitVec.setWidth_eq]

/-! ### The row of a word (R48) -/

theorem and_rowMask (w : CommandWord) : w &&& rowMask = opcField w ++ 0#8 := by
  have hmask : rowMask = BitVec.allOnes 2 ++ 0#8 := rfl
  conv_lhs => rw [← opcField_append_argField w, hmask, BitVec.and_append, BitVec.and_allOnes, BitVec.and_zero]

theorem and_rowMask_eq_iff (w : CommandWord) (o : BitVec 2) : w &&& rowMask = o ++ 0#8 ↔ opcField w = o := by
  rw [and_rowMask]
  refine ⟨fun h => ?_, fun h => by rw [h]⟩
  simpa using congrArg opcField h

/-- In format N the command is a matter of `opc` alone (R49). -/
theorem decode_eq_of_opcField_eq {w v : CommandWord} (h : opcField w = opcField v) (hN : opcField w ≠ 0b01#2) :
    decode w = decode v := by
  rw [decode, decode, ← h, if_neg hN, if_neg hN]

/-- Settles O1: the decoder undoes the encoder, on the port and on 10-bit numbers. -/
theorem decodeOfEncodeIsTheCommand : Obligations.DecodeOfEncodeIsTheCommand := by
  intro i _
  refine ⟨decode_encode i, isCanonical_encode i, ?_⟩
  rw [decodeAny_toNat, decode_encode]

/-- Settles O2: a canonical word has no ignored byte to clear. -/
theorem encodeOfDecodeIsTheCanonicalWord : Obligations.EncodeOfDecodeIsTheCanonicalWord := by
  intro w hw
  have hlow : (if opcField w = 0b01#2 then argField w else 0#8) = argField w := by
    rcases (isCanonical_iff w).1 hw with ho | ha
    · rw [if_pos ho]
    · rw [ha, ite_self]
  rw [encode_decode, hlow, opcField_append_argField]

/-- Settles O3: the masked word is `opc` above a zero byte, so it selects the row of its `opc`. -/
theorem everyWordSelectsExactlyOneRow : Obligations.EveryWordSelectsExactlyOneRow := by
  intro w
  have hrow : ∀ o, w &&& 0x300#10 = o ++ 0#8 → w = o ++ argField w := fun o h =>
    eq_of_opcField_eq ((and_rowMask_eq_iff w o).1 h)
  refine ⟨fun h => ?_, fun h => ?_, fun h => ?_, fun h => ?_, ?_⟩
  · rw [hrow 0b00#2 h, decode_append_init]
  · rw [show w.extractLsb' 0 8 = argField w from rfl, hrow 0b01#2 h, decode_append_updb, argField_append]
  · rw [hrow 0b10#2 h, decode_append_final]
  · rw [hrow 0b11#2 h, decode_append_upd0]
  · exact (opc_cases (opcField w)).imp (and_rowMask_eq_iff w _).2
      (Or.imp (and_rowMask_eq_iff w _).2 (Or.imp (and_rowMask_eq_iff w _).2 (and_rowMask_eq_iff w _).2))

/-- Settles O4: `decode` looks at the low byte in format B only, and the encoder writes 0 there in format N. -/
theorem ignoredByteChangesNothing : Obligations.IgnoredByteChangesNothing :=
  ⟨fun _ _ h hN => decode_eq_of_opcField_eq h hN, rfl, rfl, rfl⟩

/-- Settles O5: each word is the encoding of its command. -/
theorem writtenOutWordsDecode : Obligations.WrittenOutWordsDecode :=
  ⟨decode_encode .init, decode_encode (.updb 0x61#8), decode_encode (.updb 0xFF#8), decode_encode .final,
    decode_encode .upd0⟩

/-- Settles O6: a word is refused unless it is 10 bits wide with a value below 1024. -/
theorem onlyTenBitWordsAreCommands : Obligations.OnlyTenBitWordsAreCommands :=
  ⟨fun _ _ hwidth => decodeAny_of_not fun h => hwidth h.1,
    fun _ hbits => decodeAny_of_not fun h => Nat.not_lt.2 hbits h.2,
    fun _ hbits => ⟨_, decodeAny_of_lt hbits⟩⟩

end Sys2Proof
end

section
/-! The assembler (R56, R57): what `lex` makes of a bare word and of a quoted text, and the two digits of a byte. -/

namespace Sys2Proof.Machine

/-! ### Bare words and quoted texts -/

/-- A character that a bare word goes on with: neither `;` nor a blank nor a comma (R56, log 12). -/
abbrev StaysInWord (c : Char) : Prop := c ≠ ';' ∧ c ≠ ' ' ∧ c ≠ '\t' ∧ c ≠ ','

/-- A character that a bare word begins with: it opens no character and no text either. -/
abbrev BeginsWord (c : Char) : Prop := StaysInWord c ∧ c ≠ '\'' ∧ c ≠ '"'

theorem lex_inWord_append {cs : List Char} (hcs : ∀ c ∈ cs, StaysInWord c) (acc rest : List Char) :
    lex (.inWord acc) (cs ++ rest) = lex (.inWord (acc ++ cs)) rest := by
  induction cs generalizing acc with
  | nil => simp
  | cons c cs ih =>
    obtain ⟨hc, htail⟩ := List.forall_mem_cons.1 hcs
    obtain ⟨hsemi, hblank, htab, hcomma⟩ := hc
    simp [lex, hsemi, hblank, htab, hcomma, ih htail]

theorem lex_between_word {c : Char} {cs : List Char} (hc : BeginsWord c) (hcs : ∀ d ∈ cs, StaysInWord d)
    (rest : List Char) : lex .between (c :: cs ++ rest) = lex (.inWord (c :: cs)) rest := by
  obtain ⟨⟨hsemi, hblank, htab, hcomma⟩, hapostrophe, hquote⟩ := hc
  simp [lex, hsemi, hblank, htab, hcomma, hapostrophe, hquote, lex_inWord_append hcs]

/-- A word that ends the line. -/
theorem lex_last_word {c : Char} {cs : List Char} (hc : BeginsWord c) (hcs : ∀ d ∈ cs, StaysInWord d) :
    lex .between (c :: cs) = some [.word (c :: cs)] := by
  simpa [lex] using lex_between_word hc hcs []

/-- A word with a blank after it. -/
theorem lex_word_blank {c : Char} {cs : List Char} (hc : BeginsWord c) (hcs : ∀ d ∈ cs, StaysInWord d)
    (rest : List Char) :
    lex .between (c :: cs ++ ' ' :: rest) = (lex .between rest).map (.word (c :: cs) :: ·) := by
  rw [lex_between_word hc hcs]
  simp [lex]

theorem lex_inText_append {cs : List Char} (hcs : ∀ c ∈ cs, c ≠ '"') (acc rest : List Char) :
    lex (.inText acc) (cs ++ rest) = lex (.inText (acc ++ cs)) rest := by
  induction cs generalizing acc with
  | nil => simp
  | cons c cs ih =>
    obtain ⟨hc, htail⟩ := List.forall_mem_cons.1 hcs
    simp [lex, hc, ih htail]

theorem lex_quoted {cs : List Char} (hcs : ∀ c ∈ cs, c ≠ '"') :
    lex .between ('"' :: (cs ++ ['"'])) = some [.text cs] := by
  have hopen : lex .between ('"' :: (cs ++ ['"'])) = lex (.inText []) (cs ++ ['"']) := by simp [lex]
  rw [hopen, lex_inText_append hcs]
  simp [lex]

/-- A word, a blank and a quoted text. -/
theorem lex_word_quoted {c : Char} {cs : List Char} (hc : BeginsWord c) (hcs : ∀ d ∈ cs, StaysInWord d)
    {text : List Char} (htext : ∀ d ∈ text, d ≠ '"') :
    lex .between (c :: cs ++ ' ' :: '"' :: (text ++ ['"'])) = some [.word (c :: cs), .text text] := by
  rw [lex_word_blank hc hcs, lex_quoted htext, Option.map_some]

/-! ### The byte in hexadecimal -/

theorem beginsWord_hexDigit : ∀ n : Fin 16, BeginsWord (hexDigit n.val) := by decide

theorem digitValue_hexDigit : ∀ n : Fin 16, digitValue 16 (hexDigit n.val) = some n.val := by decide

theorem byteOfNumber_toNat (b : Byte) : byteOfNumber b.toNat = some b := by
  have hbyte : isByteOperand b.toNat = true := by
    rw [isByteOperand, decide_eq_true_iff]
    omega
  rw [byteOfNumber, if_pos hbyte, BitVec.ofNat_toNat, BitVec.setWidth_eq]

/-- The high digit is worth 16, the low one 1. -/
theorem byteToken_hex (hi lo : Fin 16) :
    byteToken (.word ['0', 'x', hexDigit hi.val, hexDigit lo.val]) = byteOfNumber (16 * hi.val + lo.val) := by
  simp [byteToken, numberOf, numberFrom, digitValue_hexDigit]

theorem lex_disassemble_updb (hi lo : Fin 16) :
    lex .between ['U', 'P', 'D', 'B', ' ', '0', 'x', hexDigit hi.val, hexDigit lo.val] =
      some [.word ['U', 'P', 'D', 'B'], .word ['0', 'x', hexDigit hi.val, hexDigit lo.val]] := by
  obtain ⟨hhi, -⟩ := beginsWord_hexDigit hi
  obtain ⟨hlo, -⟩ := beginsWord_hexDigit lo
  have hdigits : ∀ c ∈ ['x', hexDigit hi.val, hexDigit lo.val], StaysInWord c := by
    simp only [List.forall_mem_cons]
    exact ⟨by decide, hhi, hlo, List.forall_mem_nil _⟩
  have hoperand : lex .between ['0', 'x', hexDigit hi.val, hexDigit lo.val] =
      some [.word ['0', 'x', hexDigit hi.val, hexDigit lo.val]] := lex_last_word (by decide) hdigits
  have hline := lex_word_blank (c := 'U') (cs := ['P', 'D', 'B']) (by decide) (by simp [StaysInWord])
    ['0', 'x', hexDigit hi.val, hexDigit lo.val]
  rwa [hoperand, Option.map_some] at hline

theorem assembleLine_updb_hex (hi lo : Fin 16) :
    assembleLine ['U', 'P', 'D', 'B', ' ', '0', 'x', hexDigit hi.val, hexDigit lo.val] =
      (byteOfNumber (16 * hi.val + lo.val)).map fun b => [.updb b] := by
  rw [← byteToken_hex, assembleLine, lex_disassemble_updb]
  rfl

/-- Settles O7: the operand is written as its two hexadecimal digits and read as the number they stand for. -/
theorem assemblerReadsWhatDisassemblerWrites : Obligations.AssemblerReadsWhatDisassemblerWrites := by
  intro i
  cases i with
  | init => rfl
  | final => rfl
  | upd0 => rfl
  | updb b =>
    have hhi : b.toNat / 16 < 16 := Nat.div_lt_of_lt_mul b.isLt
    have hlo : b.toNat % 16 < 16 := Nat.mod_lt _ (by decide)
    have hline := assembleLine_updb_hex ⟨b.toNat / 16, hhi⟩ ⟨b.toNat % 16, hlo⟩
    rw [Nat.div_add_mod, byteOfNumber_toNat] at hline
    exact hline

/-! ### Quoted text -/

theorem mapM_asciiByte {cs : List Char} (hcs : ∀ c ∈ cs, c.toNat < 128) :
    cs.mapM asciiByte = some (cs.map fun c => BitVec.ofNat 8 c.toNat) := by
  induction cs with
  | nil => rfl
  | cons c cs ih =>
    obtain ⟨hc, htail⟩ := List.forall_mem_cons.1 hcs
    simp [List.mapM_cons, asciiByte, hc, ih htail]

/-- An update of a text is one `UPDB` a character, or `UPD0` (R57, R66). -/
theorem updateCommands_map (f : Char → Byte) (cs : List Char) :
    updateCommands (cs.map f) = if cs = [] then [.upd0] else cs.map fun c => .updb (f c) := by
  cases cs <;> simp [updateCommands]

theorem assembleLine_update_quoted {cs : List Char} (hcs : ∀ c ∈ cs, c ≠ '"') :
    assembleLine (['U', 'P', 'D', 'A', 'T', 'E', ' ', '"'] ++ cs ++ ['"']) =
      (cs.mapM asciiByte).map updateCommands := by
  have hlex := lex_word_quoted (c := 'U') (cs := ['P', 'D', 'A', 'T', 'E']) (by decide) (by simp [StaysInWord]) hcs
  exact congrArg (·.bind assembleTokens) hlex

theorem assembleLine_hash_quoted {cs : List Char} (hcs : ∀ c ∈ cs, c ≠ '"') :
    assembleLine (['H', 'A', 'S', 'H', ' ', '"'] ++ cs ++ ['"']) =
      (cs.mapM asciiByte).map fun bs => .init :: updateCommands bs ++ [.final] := by
  have hlex := lex_word_quoted (c := 'H') (cs := ['A', 'S', 'H']) (by decide) (by simp [StaysInWord]) hcs
  exact congrArg (·.bind assembleTokens) hlex

/-- Settles O8: the text is one token, whose characters are the bytes of the update. -/
theorem quotedTextAssemblesByteByByte : Obligations.QuotedTextAssemblesByteByByte := by
  intro cs hcs commands
  have hquoteFree : ∀ c ∈ cs, c ≠ '"' := fun c hc => (hcs c hc).1
  have hbytes := mapM_asciiByte fun c hc => (hcs c hc).2
  have hcommands : updateCommands (cs.map fun c => BitVec.ofNat 8 c.toNat) = commands := updateCommands_map _ cs
  constructor
  · rw [assembleLine_update_quoted hquoteFree, hbytes, Option.map_some, hcommands]
  · rw [assembleLine_hash_quoted hquoteFree, hbytes, Option.map_some, hcommands]
    rfl

end Sys2Proof.Machine
end

section
/-! The one response of a completed command (R51, R52, R54, R115). -/

namespace Sys2Proof.Machine

theorem statusCode_injective : Function.Injective statusCode := by
  intro st st'
  cases st <;> cases st' <;> decide

/-- The value 3 is the code of no status (R52, U5). -/
theorem statusCode_ne_three (st : Status) : statusCode st ≠ 0b11#2 := by
  cases st <;> decide

/-- A completed command answers once: an error if it was misused, the digest if it was a `FINAL`, else OK. -/
theorem exec_responds {s t : State} {i : Instr} (h : exec i s = .next t) :
    ∃ (st : Status) (d : DigestField), t.responses = s.responses ++ [responseWord st d] ∧
      (st = .errInvalidState ↔ s.fin = true ∧ i ≠ .init) ∧ (st = .digest ↔ s.fin = false ∧ i = .final) ∧
      (st ≠ .digest → d = 0#160) := by
  rcases exec_cases h with ⟨rfl, rfl⟩ | ⟨hf, hi, rfl⟩ | ⟨hf, rfl, rfl⟩ | ⟨b, hf, rfl, -, rfl⟩ |
    ⟨b, B, hf, rfl, -, -, rfl⟩ | ⟨u, hf, rfl, hu, rfl⟩
  · exact ⟨.ok, 0#160, by simp⟩
  · exact ⟨.errInvalidState, 0#160, by simp [hf, hi]⟩
  · exact ⟨.ok, 0#160, by simp [hf]⟩
  · exact ⟨.ok, 0#160, by simp [hf]⟩
  · exact ⟨.ok, 0#160, by simp [hf]⟩
  · obtain ⟨-, -, -, -, hresponses, -⟩ := pad_writes hu
    exact ⟨.digest, packDigest (serialize u.h), by simp [hf, hresponses]⟩

/-- Settles O18: the status and the digest of the response are its two fields. -/
theorem everyCommandAnswersOneLegalResponse : Obligations.EveryCommandAnswersOneLegalResponse := by
  intro s t i h
  obtain ⟨st, d, hresponses, herror, hdigest, hzero⟩ := exec_responds h
  have hstatus : (responseWord st d).extractLsb' 160 2 = statusCode st := statusField_responseWord st d
  have hfield : (responseWord st d).extractLsb' 0 160 = d := digestField_responseWord st d
  refine ⟨responseWord st d, hresponses, ?_⟩
  rw [hstatus, hfield]
  refine ⟨?_, ?_, statusCode_ne_three st, fun hne => hzero fun hst => hne (by rw [hst]; rfl)⟩
  · rw [← herror]
    exact statusCode_injective.eq_iff (b := .errInvalidState)
  · rw [← hdigest]
    exact statusCode_injective.eq_iff (b := .digest)

end Sys2Proof.Machine
end

section
/-! The digest as a number and as bytes (R53, R106, R107). -/

namespace Sys2Proof.Machine

theorem leNat_append (a b : List Byte) : leNat (a ++ b) = leNat a + 256 ^ a.length * leNat b := by
  induction a with
  | nil => simp [leNat]
  | cons x a ih =>
    rw [List.cons_append, leNat, leNat, ih, List.length_cons, Nat.pow_succ']
    ring

/-- Byte k of the number whose little-endian bytes are given is the k-th of them. -/
theorem byteOfNat_leNat {d : List Byte} {k : Nat} (hk : k < d.length) : d[k]? = some (byteOfNat (leNat d) k) := by
  induction d generalizing k with
  | nil => exact absurd hk (Nat.not_lt_zero k)
  | cons b d ih =>
    have hb : b.toNat < 256 := b.isLt
    cases k with
    | zero =>
      have hlow : (byteOfNat (leNat (b :: d)) 0).toNat = b.toNat := by
        rw [byteOfNat_zero_toNat, leNat]
        omega
      rw [List.getElem?_cons_zero, BitVec.eq_of_toNat_eq hlow]
    | succ k =>
      have hhigh : leNat (b :: d) / 256 = leNat d := by
        rw [leNat]
        omega
      rw [List.getElem?_cons_succ, byteOfNat_succ, hhigh]
      exact ih (Nat.lt_of_succ_lt_succ hk)

theorem le32bytes_eq_map (w : Word) : le32bytes w = (List.range 4).map (byteOfNat w.toNat) := by
  simp [le32bytes, List.range_succ, byteOfNat_toNat]

@[simp] theorem leNat_le32bytes (w : Word) : leNat (le32bytes w) = w.toNat := by
  rw [le32bytes_eq_map, leNat_map_byteOfNat]
  exact Nat.mod_eq_of_lt w.isLt

@[simp] theorem le32bytes_length (w : Word) : (le32bytes w).length = 4 := rfl

@[simp] theorem serialize_length (h : Chain) : (serialize h).length = 20 := rfl

/-- The serialised bytes as a number: `H[4]` in the high bits (R107). -/
theorem leNat_serialize (h : Chain) : leNat (serialize h) = (h.h4 ++ h.h3 ++ h.h2 ++ h.h1 ++ h.h0).toNat := by
  simp only [serialize, leNat_append, leNat_le32bytes, List.length_append, le32bytes_length, toNat_append_eq_add]
  omega

theorem packDigest_serialize (h : Chain) : packDigest (serialize h) = h.h4 ++ h.h3 ++ h.h2 ++ h.h1 ++ h.h0 := by
  rw [packDigest, leNat_serialize, BitVec.ofNat_toNat, BitVec.setWidth_eq]

/-- Settles O42: the packed digest is the number whose byte k is the k-th serialised one. -/
theorem digestFieldIsTheWordsConcatenated : Obligations.DigestFieldIsTheWordsConcatenated := by
  intro h st
  refine ⟨packDigest_serialize h, fun k hk => ?_, statusField_responseWord st _⟩
  rw [byteOfNat_leNat (by rwa [serialize_length]), responseWord, BitVec.extractLsb'_append_eq_of_add_le (by omega),
    packDigest_serialize, ← byteOfNat_toNat, leNat_serialize]

end Sys2Proof.Machine
end

section
/-! The four commands, one by one, and the state machine they make (R60 to R65). -/

namespace Sys2Proof.Machine

/-- Settles O12: `INIT` fails in no state. -/
theorem initReinitialisesFromEveryState : Obligations.InitReinitialisesFromEveryState := fun s =>
  ⟨_, exec_init s, by simp [iv]⟩

/-- Settles O14: the error of a misused command, or the OK response alone. -/
theorem emptyUpdateChangesNothing : Obligations.EmptyUpdateChangesNothing :=
  ⟨rfl, fun _ => ⟨fun hf => exec_finalized hf (by simp), fun hf => ⟨_, exec_upd0 hf, by simp [hf]⟩⟩⟩

/-- The byte that fills the buffer stands at offset 63, after the 63 that were buffered (R62). -/
theorem byteAt_acceptByte_full {s : State} {B : Block} (hB : Buffers s B) (hfull : s.bufcnt.toNat = 63) (b : Byte)
    (k : Fin 64) : (s.acceptByte b).buf.byteAt k.val = some (if k.val = 63 then b else B k) := by
  rw [acceptByte_buf, byteAt_store, hfull]
  split_ifs with hk
  · rfl
  · exact hB k (by omega)

theorem encode_updb_toNat (b : Byte) : (encode (.updb b)).toNat = 0x100 + b.toNat :=
  toNat_append_eq_add 0b01#2 b

/-- What `UPDB` does to `BUF`, with the offset as R62 forms it. -/
theorem byteAt_acceptByte (s : State) (b : Byte) (k : Nat) :
    (s.acceptByte b).buf.byteAt k = if k = (bufOffset s.bufcnt).val then some b else s.buf.byteAt k := by
  rw [acceptByte_buf, byteAt_store, bufOffset_val]

theorem acceptByte_len_toNat (s : State) (b : Byte) :
    (s.acceptByte b).len.toNat = (s.len.toNat + 1) % 2 ^ 64 := by
  simp

/-- Settles O13: a misuse, a byte buffered, or the block of which it is the last byte absorbed. -/
theorem updbAppendsOneByte : Obligations.UpdbAppendsOneByte := by
  intro s b
  refine ⟨encode_updb_toNat b, fun hf => exec_finalized hf (by simp), fun hf hlow => ?_, fun hf hfull B hB => ?_⟩
  · have hc : s.bufcnt ≠ 63#6 := fun h => by simp [h] at hlow
    have hsucc : (s.bufcnt + 1#6).toNat = s.bufcnt.toNat + 1 := by bv_omega
    refine ⟨_, exec_updb_buffer hf hc b, ?_⟩
    simp [hf, hsucc, byteAt_acceptByte, acceptByte_len_toNat, -acceptByte_buf, -acceptByte_len]
  · have hc : s.bufcnt = 63#6 := BitVec.eq_of_toNat_eq hfull
    refine ⟨_, exec_updb_absorb hf hc b (byteAt_acceptByte_full hB hfull b), ?_⟩
    simp [hf, byteAt_acceptByte, acceptByte_len_toNat, -acceptByte_buf, -acceptByte_len]

theorem onlyPaddingBlock_lengthField (B : Block) (n : Nat) (len : Word64) :
    onlyPaddingBlock B n (lengthField len) = fun k =>
      if k.val < n then B k else if k.val = n then 0x80#8 else if k.val < 56 then 0x00#8
      else (len <<< 3).extractLsb' (8 * (k.val - 56)) 8 := by
  funext k
  rw [onlyPaddingBlock, byteOfNat_toNat, lengthField]

theorem secondPaddingBlock_lengthField (len : Word64) :
    secondPaddingBlock (lengthField len) = fun k =>
      if k.val < 56 then 0x00#8 else (len <<< 3).extractLsb' (8 * (k.val - 56)) 8 := by
  funext k
  rw [secondPaddingBlock, byteOfNat_toNat, lengthField]

/-- `Pad` in both cases of R104: one block when `BUFCNT` ≤ 55, else two. -/
theorem pad_h {s : State} {B : Block} (hB : Buffers s B) :
    ∃ u, s.pad = .ok u ∧
      (s.bufcnt.toNat ≤ 55 → u.h = compressFn s.h (onlyPaddingBlock B s.bufcnt.toNat (lengthField s.len))) ∧
      (56 ≤ s.bufcnt.toNat → u.h = compressFn (compressFn s.h (firstPaddingBlock B s.bufcnt.toNat))
        (secondPaddingBlock (lengthField s.len))) := by
  rcases Nat.lt_or_ge 55 s.bufcnt.toNat with hn | hn
  · obtain ⟨u, hu, huh⟩ := pad_two hB hn
    exact ⟨u, hu, fun h => absurd hn (Nat.not_lt.2 h), fun _ => huh⟩
  · obtain ⟨u, hu, huh⟩ := pad_one hB hn
    exact ⟨u, hu, fun _ => huh, fun h => absurd hn (Nat.not_le.2 h)⟩

/-- Settles O15: `Pad` gives the final chaining words, and the response is packed from them. -/
theorem finalPadsAbsorbsAndAnswersTheDigest : Obligations.FinalPadsAbsorbsAndAnswersTheDigest := by
  refine ⟨rfl, fun s => ⟨fun hf => exec_finalized hf (by simp), fun hf B hB => ?_⟩⟩
  obtain ⟨u, hu, hone, htwo⟩ := pad_h hB
  obtain ⟨-, -, -, hinputs, hresponses, -⟩ := pad_writes hu
  rw [onlyPaddingBlock_lengthField] at hone
  rw [secondPaddingBlock_lengthField] at htwo
  exact ⟨_, exec_final hf hu, hone, htwo, rfl, by simp [hresponses, packDigest_serialize], by simp [hinputs]⟩

/-- No command stops where the buffered bytes have values, nor in Finalized (R21). -/
theorem exec_completes (i : Instr) {s : State} (h : s.fin = false → Readable s) : ∃ t, exec i s = .next t := by
  rcases exec_next_or_fault i s with hnext | ⟨f, hfault, hfin, -⟩
  · exact hnext
  · obtain ⟨hstops, -⟩ := commandStopsOnlyOnAByteWithoutAValue s i
    obtain ⟨-, -, k, -, hk, hnone⟩ := hstops f hfault
    have hsome := h hfin ⟨k, hk.trans s.bufcnt.isLt⟩ hk
    simp [hnone] at hsome

@[simp] theorem extractLsb'_status_responseWord (st : Status) (d : DigestField) :
    (responseWord st d).extractLsb' 160 2 = statusCode st := statusField_responseWord st d

/-- Settles O17: each way a command can answer is a row of the table of R60. -/
theorem stateMachineOfTheCommands : Obligations.StateMachineOfTheCommands := by
  refine ⟨rfl, fun s i hread => ?_⟩
  obtain ⟨t, ht⟩ := exec_completes i hread
  rcases exec_cases ht with ⟨rfl, rfl⟩ | ⟨hf, hi, rfl⟩ | ⟨hf, rfl, rfl⟩ | ⟨b, hf, rfl, -, rfl⟩ |
    ⟨b, B, hf, rfl, -, -, rfl⟩ | ⟨u, hf, rfl, hu, rfl⟩
  · exact ⟨_, responseWord .ok 0#160, ht, by simp, by simp [statusCode]⟩
  · exact ⟨_, responseWord .errInvalidState 0#160, ht, by simp, by
      simp [statusCode, hf, hi, State.raiseInvalidState, State.respond]⟩
  · exact ⟨_, responseWord .ok 0#160, ht, by simp, by simp [statusCode, hf, State.respond]⟩
  · exact ⟨_, responseWord .ok 0#160, ht, by simp, by simp [statusCode, hf]⟩
  · exact ⟨_, responseWord .ok 0#160, ht, by simp, by simp [statusCode, hf]⟩
  · obtain ⟨-, -, -, -, hresponses, -⟩ := pad_writes hu
    exact ⟨_, responseWord .digest (packDigest (serialize u.h)), ht, by simp [hresponses], by simp [statusCode, hf]⟩

end Sys2Proof.Machine
end

section
/-! A run of commands from the port: a step is the command of the oldest word (R39, R58), and runs compose. -/

namespace Sys2Proof.Machine

theorem run_add_eq_next {M : Host.Core} {n k : Nat} {s u : M.State} :
    M.run (n + k) s = .next u ↔ ∃ t, M.run n s = .next t ∧ M.run k t = .next u := by
  induction n generalizing s with
  | zero => simp [Host.Core.run]
  | succ n ih =>
    rw [Nat.succ_add, run_succ_eq_next]
    simp only [ih, run_succ_eq_next]
    exact ⟨fun ⟨a, ha, t, ht, hu⟩ => ⟨t, ⟨a, ha, ht⟩, hu⟩, fun ⟨t, ⟨a, ha, ht⟩, hu⟩ => ⟨a, ha, t, ht, hu⟩⟩

theorem presented_append (is js : List Instr) : presented (is ++ js) = presented is ++ presented js :=
  List.map_append

theorem step_presented {s : State} {i : Instr} {is : List Instr} {rest : List Input}
    (h : s.inputs = presented (i :: is) ++ rest) : step s = exec i (s.setInputs (presented is ++ rest)) := by
  rw [step_of_command (rest := presented is ++ rest) h, decode_encode]

/-- A run of commands is the first command and a run of the others. -/
theorem run_presented_cons {s t u : State} {i : Instr} {is : List Instr} {rest : List Input}
    (h : s.inputs = presented (i :: is) ++ rest) (ht : exec i (s.setInputs (presented is ++ rest)) = .next t)
    (hu : Host.Core.run Sys2Proof.core is.length t = .next u) :
    Host.Core.run Sys2Proof.core (i :: is).length s = .next u :=
  run_succ_eq_next.2 ⟨t, (step_presented h).trans ht, hu⟩

/-- Settles O28, by induction on the commands. -/
theorem finalizedIsTerminalWithoutReset : Obligations.FinalizedIsTerminalWithoutReset := by
  intro s is
  induction is generalizing s with
  | nil =>
    intro rest _ _ hin
    obtain rfl : s.inputs = rest := hin
    simp [Host.Core.run]
  | cons i is ih =>
    intro rest hf hinit hin
    obtain ⟨hi, his⟩ := List.ne_and_not_mem_of_not_mem_cons hinit
    have hfirst := exec_finalized (s := s.setInputs (presented is ++ rest)) hf hi.symm
    have hrest := ih (s.setInputs (presented is ++ rest)).raiseInvalidState rest hf his rfl
    refine run_presented_cons hin hfirst (hrest.trans ?_)
    simp [State.setInputs, List.replicate_succ]

/-! ### Updates in Accepting (R66) -/

/-- `UPDB` and `UPD0`, the commands an update call is made of (R66). -/
def IsUpdate (i : Instr) : Prop := i ≠ .init ∧ i ≠ .final

/-- The message bytes a command brings: the operand of `UPDB` (R62), of `UPD0` none (R63). -/
def messageBytes : Instr → List Byte
  | .updb b => [b]
  | .init | .final | .upd0 => []

theorem isUpdate_of_mem_updateCommands {bytes : List Byte} {i : Instr} (h : i ∈ updateCommands bytes) :
    IsUpdate i := by
  cases bytes with
  | nil =>
    obtain rfl : i = .upd0 := List.mem_singleton.1 h
    simp [IsUpdate]
  | cons b bs =>
    obtain ⟨c, -, rfl⟩ := List.mem_map.1 h
    simp [IsUpdate]

/-- An update call brings its bytes in index order (R66). -/
theorem flatMap_messageBytes_updateCommands (bytes : List Byte) :
    (updateCommands bytes).flatMap messageBytes = bytes := by
  cases bytes with
  | nil => rfl
  | cons b bs =>
    rw [updateCommands, List.flatMap_map]
    exact List.flatMap_singleton' (b :: bs)

/-- All an update command can do in Accepting, with the bytes it brings: none, one that is buffered, or one that fills
the block and has it absorbed (R62, R63). -/
theorem exec_update_cases {i : Instr} {s t : State} (hi : IsUpdate i) (hf : s.fin = false)
    (h : exec i s = .next t) :
    (messageBytes i = [] ∧ t = s.respond .ok 0#160) ∨
    (∃ b, messageBytes i = [b] ∧ s.bufcnt ≠ 63#6 ∧
      t = ((s.acceptByte b).setCount (s.bufcnt + 1#6)).respond .ok 0#160) ∨
    (∃ b B, messageBytes i = [b] ∧ s.bufcnt = 63#6 ∧
      (∀ k : Fin 64, (s.acceptByte b).buf.byteAt k.val = some (B k)) ∧
      t = (((s.acceptByte b).setH (compressFn s.h B)).setCount 0#6).respond .ok 0#160) := by
  obtain ⟨hinit, hfinal⟩ := hi
  rcases exec_cases h with ⟨hi, -⟩ | ⟨hf', -⟩ | ⟨-, rfl, rfl⟩ | ⟨b, -, rfl, hc, rfl⟩ |
    ⟨b, B, -, rfl, hc, hB, rfl⟩ | ⟨-, -, hi, -⟩
  · exact absurd hi hinit
  · simp [hf] at hf'
  · exact .inl ⟨rfl, rfl⟩
  · exact .inr (.inl ⟨b, rfl, hc, rfl⟩)
  · exact .inr (.inr ⟨b, B, rfl, hc, hB, rfl⟩)
  · exact absurd hi hfinal

/-- An update command in Accepting answers OK and leaves the command port alone. -/
theorem exec_update_answers_ok {i : Instr} {s t : State} (hi : IsUpdate i) (hf : s.fin = false)
    (h : exec i s = .next t) : t.inputs = s.inputs ∧ t.responses = s.responses ++ [responseWord .ok 0#160] := by
  rcases exec_update_cases hi hf h with ⟨-, rfl⟩ | ⟨b, -, -, rfl⟩ | ⟨b, B, -, -, -, rfl⟩ <;> simp

/-- The rule for a run of updates. `P m s`: in `s` the engine has taken the bytes `m`. If `P` implies that the engine
is Accepting with its buffered bytes readable, does not look at the command port, and is kept by every update command,
then a run of updates completes, answers OK each time, and ends in `P` of the bytes taken in all. -/
theorem run_updates {P : List Byte → State → Prop}
    (hready : ∀ {m s}, P m s → s.fin = false ∧ Readable s)
    (hport : ∀ {m s} (rest : List Input), P m s → P m (s.setInputs rest))
    (hkeep : ∀ {m s t i}, P m s → IsUpdate i → exec i s = .next t → P (m ++ messageBytes i) t)
    {is : List Instr} (his : ∀ i ∈ is, IsUpdate i) {m : List Byte} {s : State} {rest : List Input} (hm : P m s)
    (hin : s.inputs = presented is ++ rest) :
    ∃ t : State, Host.Core.run Sys2Proof.core is.length s = .next t ∧ P (m ++ is.flatMap messageBytes) t ∧
      t.inputs = rest ∧ t.responses = s.responses ++ List.replicate is.length (responseWord .ok 0#160) := by
  induction is generalizing m s with
  | nil => exact ⟨s, rfl, by simpa using hm, hin, by simp⟩
  | cons i is ih =>
    obtain ⟨hi, his⟩ := List.forall_mem_cons.1 his
    have hm' := hport (presented is ++ rest) hm
    obtain ⟨hf, hread⟩ := hready hm'
    obtain ⟨t, ht⟩ := exec_completes i fun _ => hread
    obtain ⟨htin, htresp⟩ := exec_update_answers_ok hi hf ht
    obtain ⟨u, hu, hmu, huin, huresp⟩ := ih his (hkeep hm' hi ht) htin
    refine ⟨u, run_presented_cons hin ht hu, ?_, huin, ?_⟩
    · rwa [List.flatMap_cons, ← List.append_assoc]
    · rw [huresp, htresp, List.length_cons, List.replicate_succ, List.append_assoc]
      rfl

/-! ### One update call (R66) -/

/-- In Accepting with readable buffered bytes, `LEN` has counted the bytes `m` from `l` on. -/
def HasCounted (l : Word64) (m : List Byte) (s : State) : Prop :=
  s.fin = false ∧ Readable s ∧ s.len = l + BitVec.ofNat 64 m.length

/-- Which bytes hold values is not a matter of the response port, nor of `H`. -/
theorem readable_respond {s : State} (h : Readable s) (st : Status) (d : DigestField) : Readable (s.respond st d) := h

theorem readable_setH_setCount {s : State} {c : BitVec 6} (h : Readable (s.setCount c)) (v : Chain) :
    Readable ((s.setH v).setCount c) := h

theorem hasCounted_exec {l : Word64} {m : List Byte} {s t : State} {i : Instr} (h : HasCounted l m s)
    (hi : IsUpdate i) (ht : exec i s = .next t) : HasCounted l (m ++ messageBytes i) t := by
  obtain ⟨hf, hread, hlen⟩ := h
  have hcount : s.len + 1#64 = l + BitVec.ofNat 64 (m.length + 1) := by
    rw [hlen, BitVec.add_assoc, BitVec.ofNat_add]
  rcases exec_update_cases hi hf ht with ⟨hb, rfl⟩ | ⟨b, hb, -, rfl⟩ | ⟨b, B, hb, -, -, rfl⟩
  · exact ⟨hf, readable_respond hread _ _, by simp [hb, hlen]⟩
  · have hsucc : (s.bufcnt + 1#6).toNat ≤ s.bufcnt.toNat + 1 := by bv_omega
    exact ⟨by simp [hf], readable_respond (readable_acceptByte_setCount hread b hsucc) _ _, by simp [hb, hcount]⟩
  · have hread' := readable_acceptByte_setCount hread b (c := 0#6) (Nat.zero_le _)
    exact ⟨by simp [hf], readable_respond (readable_setH_setCount hread' _) _ _, by simp [hb, hcount]⟩

/-- Settles O27: every command of the call is an update, so in Finalized every one is a misuse. -/
theorem updateCallSucceedsOrFailsAsAWhole : Obligations.UpdateCallSucceedsOrFailsAsAWhole := by
  intro s bytes rest hin
  refine ⟨fun hf hread => ?_, fun hf => finalizedIsTerminalWithoutReset s _ rest hf (fun hmem => ?_) hin⟩
  · have hstart : HasCounted s.len [] s := ⟨hf, hread, by simp⟩
    obtain ⟨t, hrun, ⟨htf, -, htlen⟩, htin, htresp⟩ := run_updates (P := HasCounted s.len)
      (fun ⟨hf, hread, _⟩ => ⟨hf, hread⟩) (fun _ h => h) hasCounted_exec
      (fun _ => isUpdate_of_mem_updateCommands) hstart hin
    refine ⟨t, hrun, htin, htf, ?_, htresp⟩
    rw [htlen, List.nil_append, flatMap_messageBytes_updateCommands, BitVec.toNat_add, BitVec.toNat_ofNat,
      Nat.add_mod_mod]
  · obtain ⟨hinit, -⟩ := isUpdate_of_mem_updateCommands hmem
    exact hinit rfl

end Sys2Proof.Machine
end

section
/-! The padded message, block by block (R70, R100 to R105, R109): the whole blocks of the message first, then the one or
two blocks that `FINAL` makes. -/

namespace Sys2Proof.Machine

/-! ### Blocks of a longer message -/

theorem blockAt_append_apply (m x : List Byte) (q : Nat) {k : Fin 64} (hk : 64 * q + k.val < m.length) :
    blockAt (m ++ x) q k = blockAt m q k :=
  List.getD_append m x _ _ hk

theorem blockAt_append (m x : List Byte) {q : Nat} (hq : 64 * (q + 1) ≤ m.length) :
    blockAt (m ++ x) q = blockAt m q :=
  funext fun k => blockAt_append_apply m x q (by omega)

@[simp] theorem chainAfter_zero (P : List Byte) : chainAfter P 0 = iv := rfl

theorem chainAfter_succ (P : List Byte) (n : Nat) :
    chainAfter P (n + 1) = compressFn (chainAfter P n) (blockAt P n) := by
  rw [chainAfter, chainAfter, List.range_succ, List.foldl_append, List.foldl_cons, List.foldl_nil]

/-- The chaining words after whole blocks do not depend on what follows them. -/
theorem chainAfter_append (m x : List Byte) {n : Nat} (hn : 64 * n ≤ m.length) :
    chainAfter (m ++ x) n = chainAfter m n := by
  induction n with
  | zero => rw [chainAfter_zero, chainAfter_zero]
  | succ n ih => rw [chainAfter_succ, chainAfter_succ, ih (by omega), blockAt_append m x hn]

/-! ### The padding (R100, R109) -/

@[simp] theorem le64bytes_length (l : Word64) : (le64bytes l).length = 8 := by simp [le64bytes]

/-- R71, R109: the padded message fills floor((n + 8) / 64) + 1 blocks. -/
theorem paddedMessage_length (m : List Byte) : (paddedMessage m).length = 64 * ((m.length + 8) / 64 + 1) := by
  simp only [paddedMessage, zeroCount, List.length_append, List.length_replicate, le64bytes_length, List.length_cons,
    List.length_nil]
  omega

/-- `LEN` after `n` bytes gives the length field of the padded message (R103). -/
theorem lengthField_ofNat (n : Nat) : lengthField (BitVec.ofNat 64 n) = BitVec.ofNat 64 (8 * n) := by
  apply BitVec.eq_of_toNat_eq
  rw [lengthField_toNat, BitVec.toNat_ofNat, BitVec.toNat_ofNat, Nat.mod_mul_mod, Nat.mul_comm]

theorem le64bytes_getD (l : Word64) {i : Nat} (hi : i < 8) : (le64bytes l).getD i 0#8 = byteOfNat l.toNat i := by
  simp [le64bytes, hi]

/-- The bytes of the padded message: the message, the marker, zeros, the length field in the last eight. -/
theorem paddedMessage_getD (m : List Byte) {j : Nat} (hj : j < (paddedMessage m).length) :
    (paddedMessage m).getD j 0#8 =
      if j < m.length then m.getD j 0#8 else if j = m.length then 0x80#8
      else if j + 8 < (paddedMessage m).length then 0x00#8
      else byteOfNat (lengthField (BitVec.ofNat 64 m.length)).toNat (j + 8 - (paddedMessage m).length) := by
  have htotal : (paddedMessage m).length = m.length + (1 + (zeroCount m.length + 8)) := by
    simp only [paddedMessage, List.append_assoc, List.length_append, List.length_replicate, le64bytes_length,
      List.length_singleton]
  rw [htotal] at hj ⊢
  rw [paddedMessage, lengthField_ofNat, List.append_assoc, List.append_assoc]
  rcases Nat.lt_or_ge j m.length with hm | hm
  · rw [if_pos hm, List.getD_append _ _ _ _ hm]
  obtain ⟨i, rfl⟩ := Nat.exists_eq_add_of_le hm
  rw [if_neg (by omega), List.getD_append_right _ _ _ _ hm, Nat.add_sub_cancel_left]
  rcases i with _ | i
  · rw [if_pos (Nat.add_zero _)]
    rfl
  rw [if_neg (by omega), List.singleton_append, List.getD_cons_succ]
  rcases Nat.lt_or_ge i (zeroCount m.length) with hz | hz
  · rw [if_pos (by omega), List.getD_append _ _ _ _ (by simpa using hz), List.getD_replicate _ hz]
  · have hoffset : m.length + (i + 1) + 8 - (m.length + (1 + (zeroCount m.length + 8))) = i - zeroCount m.length := by
      omega
    rw [if_neg (by omega), List.getD_append_right _ _ _ _ (by simpa using hz), List.length_replicate,
      le64bytes_getD _ (by omega), hoffset]

/-! ### The blocks of the padding (R100, R104, R105) -/

/-- In the last block of a message of length n the first n mod 64 bytes are message bytes. -/
theorem blockOffset_lt_iff (n k : Nat) : 64 * (n / 64) + k < n ↔ k < n % 64 := by omega

theorem blockOffset_eq_iff (n k : Nat) : 64 * (n / 64) + k = n ↔ k = n % 64 := by omega

/-- Padding changes no whole block of the message. -/
theorem chainAfter_paddedMessage (m : List Byte) :
    chainAfter (paddedMessage m) (m.length / 64) = chainAfter m (m.length / 64) := by
  rw [paddedMessage, List.append_assoc, List.append_assoc, chainAfter_append _ _ (Nat.mul_div_le _ _)]

section
variable {m : List Byte}

/-- Where the padding ends in the block the message ends in, that block is the one of R104. -/
theorem blockAt_paddedMessage_only (htotal : (paddedMessage m).length = 64 * (m.length / 64 + 1)) :
    blockAt (paddedMessage m) (m.length / 64) =
      onlyPaddingBlock (blockAt m (m.length / 64)) (m.length % 64) (lengthField (BitVec.ofNat 64 m.length)) := by
  funext k
  have hzero : 64 * (m.length / 64) + k.val + 8 < 64 * (m.length / 64 + 1) ↔ k.val < 56 := by omega
  have hlast : 64 * (m.length / 64) + k.val + 8 - 64 * (m.length / 64 + 1) = k.val - 56 := by omega
  rw [blockAt, paddedMessage_getD m (by omega), htotal]
  simp only [onlyPaddingBlock, blockAt, blockOffset_lt_iff, blockOffset_eq_iff, hzero, hlast]

/-- Where the padding goes on into the next block, the first block holds no length field (R105). -/
theorem blockAt_paddedMessage_first (htotal : (paddedMessage m).length = 64 * (m.length / 64 + 2)) :
    blockAt (paddedMessage m) (m.length / 64) = firstPaddingBlock (blockAt m (m.length / 64)) (m.length % 64) := by
  funext k
  have hzero : 64 * (m.length / 64) + k.val + 8 < 64 * (m.length / 64 + 2) := by omega
  rw [blockAt, paddedMessage_getD m (by omega), htotal]
  simp only [firstPaddingBlock, blockAt, blockOffset_lt_iff, blockOffset_eq_iff, if_pos hzero]

/-- The block after the one the message ends in is zeros and the length field (R105). -/
theorem blockAt_paddedMessage_second (htotal : (paddedMessage m).length = 64 * (m.length / 64 + 2)) :
    blockAt (paddedMessage m) (m.length / 64 + 1) = secondPaddingBlock (lengthField (BitVec.ofNat 64 m.length)) := by
  funext k
  have hzero : 64 * (m.length / 64 + 1) + k.val + 8 < 64 * (m.length / 64 + 2) ↔ k.val < 56 := by omega
  have hlast : 64 * (m.length / 64 + 1) + k.val + 8 - 64 * (m.length / 64 + 2) = k.val - 56 := by omega
  rw [blockAt, paddedMessage_getD m (by omega), htotal, if_neg (by omega), if_neg (by omega)]
  simp only [secondPaddingBlock, hzero, hlast]

/-- A message that ends at or below offset 55 of its last block: that block is `FINAL`'s only one (R104). -/
theorem rmd160Chain_one (hr : m.length % 64 ≤ 55) :
    rmd160Chain m = compressFn (chainAfter m (m.length / 64))
      (onlyPaddingBlock (blockAt m (m.length / 64)) (m.length % 64) (lengthField (BitVec.ofNat 64 m.length))) := by
  have htotal : (paddedMessage m).length = 64 * (m.length / 64 + 1) := by
    rw [paddedMessage_length]
    omega
  rw [rmd160Chain, htotal, Nat.mul_div_cancel_left _ (by decide), chainAfter_succ, chainAfter_paddedMessage,
    blockAt_paddedMessage_only htotal]

/-- A message that ends above offset 55 of its last block has one more block of padding (R105). -/
theorem rmd160Chain_two (hr : 56 ≤ m.length % 64) :
    rmd160Chain m = compressFn
      (compressFn (chainAfter m (m.length / 64)) (firstPaddingBlock (blockAt m (m.length / 64)) (m.length % 64)))
      (secondPaddingBlock (lengthField (BitVec.ofNat 64 m.length))) := by
  have htotal : (paddedMessage m).length = 64 * (m.length / 64 + 2) := by
    rw [paddedMessage_length]
    omega
  rw [rmd160Chain, htotal, Nat.mul_div_cancel_left _ (by decide), chainAfter_succ, chainAfter_succ,
    chainAfter_paddedMessage, blockAt_paddedMessage_first htotal, blockAt_paddedMessage_second htotal]

end

end Sys2Proof.Machine
end

section
/-! A whole message (R66, R67, R70): what the engine holds of the bytes it has taken since `INIT`, kept by every update
however the message is cut, and what `FINAL` makes of it. -/

namespace Sys2Proof.Machine

/-- The engine is Accepting and has taken exactly the message bytes `m` since `INIT`: the whole blocks of `m` are
absorbed, the rest is buffered, and both counters have followed (R13, R14, R20). -/
structure HasTaken (m : List Byte) (s : State) : Prop where
  fin : s.fin = false
  h : s.h = chainAfter m (m.length / 64)
  bufcnt : s.bufcnt = BitVec.ofNat 6 m.length
  len : s.len = BitVec.ofNat 64 m.length
  buffers : Buffers s (blockAt m (m.length / 64))

section
variable {m : List Byte} {s : State}

theorem hasTaken_setInputs (hm : HasTaken m s) (rest : List Input) : HasTaken m (s.setInputs rest) := by
  obtain ⟨hf, hh, hcnt, hlen, hbuf⟩ := hm
  exact ⟨hf, hh, hcnt, hlen, hbuf⟩

theorem hasTaken_respond (hm : HasTaken m s) (st : Status) (d : DigestField) : HasTaken m (s.respond st d) := by
  obtain ⟨hf, hh, hcnt, hlen, hbuf⟩ := hm
  exact ⟨hf, hh, hcnt, hlen, hbuf⟩

theorem hasTaken_nil_loadIv (s : State) : HasTaken [] s.loadIv :=
  ⟨rfl, rfl, rfl, rfl, fun _ hk => absurd hk (Nat.not_lt_zero _)⟩

theorem HasTaken.bufcnt_toNat (hm : HasTaken m s) : s.bufcnt.toNat = m.length % 64 := by
  rw [hm.bufcnt, BitVec.toNat_ofNat]

/-- The byte taken next stands where the longer message has it: behind the buffered bytes (R62). -/
theorem HasTaken.byteAt_acceptByte (hm : HasTaken m s) (b : Byte) (k : Fin 64) (hk : k.val ≤ s.bufcnt.toNat) :
    (s.acceptByte b).buf.byteAt k.val = some (blockAt (m ++ [b]) (m.length / 64) k) := by
  have hcnt := hm.bufcnt_toNat
  rw [acceptByte_buf, byteAt_store]
  split_ifs with hnew
  · have hoffset : 64 * (m.length / 64) + k.val = m.length := by omega
    simp [blockAt, hoffset]
  · rw [blockAt_append_apply m [b] _ (by omega)]
    exact hm.buffers k (by omega)

/-- A byte that does not end a block is buffered (R62). -/
theorem HasTaken.buffer (hm : HasTaken m s) (hc : s.bufcnt ≠ 63#6) (b : Byte) :
    HasTaken (m ++ [b]) ((s.acceptByte b).setCount (s.bufcnt + 1#6)) := by
  have hcnt := hm.bufcnt_toNat
  have hlow : s.bufcnt.toNat ≠ 63 := fun h => hc (BitVec.eq_of_toNat_eq h)
  have hblocks : (m ++ [b]).length / 64 = m.length / 64 := by
    rw [List.length_append, List.length_singleton]
    omega
  refine ⟨by simp [hm.fin], ?_, ?_, ?_, fun k hk => ?_⟩
  · rw [setCount_h, acceptByte_h, hm.h, hblocks, chainAfter_append _ _ (Nat.mul_div_le _ _)]
  · rw [setCount_bufcnt, hm.bufcnt, List.length_append, List.length_singleton, BitVec.ofNat_add]
  · rw [setCount_len, acceptByte_len, hm.len, List.length_append, List.length_singleton, BitVec.ofNat_add]
  · rw [setCount_bufcnt] at hk
    rw [setCount_buf, hblocks]
    exact hm.byteAt_acceptByte b k (by bv_omega)

/-- The byte that ends a block: the block is that of the message, and the next one is empty (R62). -/
theorem HasTaken.absorb {B : Block} (hm : HasTaken m s) (hc : s.bufcnt = 63#6) (b : Byte)
    (hB : ∀ k : Fin 64, (s.acceptByte b).buf.byteAt k.val = some (B k)) :
    HasTaken (m ++ [b]) (((s.acceptByte b).setH (compressFn s.h B)).setCount 0#6) := by
  have hfull : s.bufcnt.toNat = 63 := by rw [hc]; rfl
  have hcnt := hm.bufcnt_toNat
  have hblock : B = blockAt (m ++ [b]) (m.length / 64) := funext fun k =>
    Option.some.inj ((hB k).symm.trans (hm.byteAt_acceptByte b k (by omega)))
  have hblocks : (m ++ [b]).length / 64 = m.length / 64 + 1 := by
    rw [List.length_append, List.length_singleton]
    omega
  refine ⟨by simp [hm.fin], ?_, ?_, ?_, fun k hk => absurd hk (Nat.not_lt_zero _)⟩
  · rw [setCount_h, setH_h, hblock, hblocks, chainAfter_succ, hm.h, chainAfter_append _ _ (Nat.mul_div_le _ _)]
  · have hwrap : 0#6 = s.bufcnt + 1#6 := by rw [hc]; rfl
    rw [setCount_bufcnt, hwrap, hm.bufcnt, List.length_append, List.length_singleton, BitVec.ofNat_add]
  · rw [setCount_len, setH_len, acceptByte_len, hm.len, List.length_append, List.length_singleton, BitVec.ofNat_add]

/-- Every update command takes its bytes. -/
theorem hasTaken_exec {t : State} {i : Instr} (hm : HasTaken m s) (hi : IsUpdate i) (ht : exec i s = .next t) :
    HasTaken (m ++ messageBytes i) t := by
  rcases exec_update_cases hi hm.fin ht with ⟨hb, rfl⟩ | ⟨b, hb, hc, rfl⟩ | ⟨b, B, hb, hc, hB, rfl⟩
  · rw [hb, List.append_nil]
    exact hasTaken_respond hm _ _
  · rw [hb]
    exact hasTaken_respond (hm.buffer hc b) _ _
  · rw [hb]
    exact hasTaken_respond (hm.absorb hc b hB) _ _

/-- `Pad` ends with the chaining words of the padded message (R100, R109). -/
theorem HasTaken.pad (hm : HasTaken m s) : ∃ u, s.pad = .ok u ∧ u.h = rmd160Chain m := by
  obtain ⟨u, hu, hone, htwo⟩ := pad_h hm.buffers
  rw [hm.bufcnt_toNat, hm.h, hm.len] at hone htwo
  refine ⟨u, hu, ?_⟩
  rcases Nat.lt_or_ge 55 (m.length % 64) with hr | hr
  · rw [htwo hr, rmd160Chain_two hr]
  · rw [hone hr, rmd160Chain_one hr]

/-- `FINAL` after the bytes `m` answers RMD160(m) (R64, R70). -/
theorem HasTaken.final (hm : HasTaken m s) :
    ∃ t, exec .final s = .next t ∧ t.inputs = s.inputs ∧ t.fin = true ∧ t.h = rmd160Chain m ∧
      t.responses = s.responses ++ [responseWord .digest (packDigest (rmd160 m))] := by
  obtain ⟨u, hu, hh⟩ := hm.pad
  obtain ⟨-, -, -, hinputs, hresponses, -⟩ := pad_writes hu
  exact ⟨_, exec_final hm.fin hu, by simp [hinputs], by simp, by simp [hh],
    by simp [hresponses, hh, rmd160]⟩

end

theorem run_presented_append {is js : List Instr} {s t u : State}
    (ht : Host.Core.run Sys2Proof.core is.length s = .next t)
    (hu : Host.Core.run Sys2Proof.core js.length t = .next u) :
    Host.Core.run Sys2Proof.core (is ++ js).length s = .next u := by
  rw [List.length_append]
  exact run_add_eq_next.2 ⟨t, ht, hu⟩

/-- `INIT`, any updates, `FINAL`: every update answers OK, and the digest is that of the bytes they bring. -/
theorem run_message {is : List Instr} (his : ∀ i ∈ is, IsUpdate i) {s : State} {rest : List Input}
    (hin : s.inputs = presented (.init :: is ++ [.final]) ++ rest) :
    ∃ t : State, Host.Core.run Sys2Proof.core (Instr.init :: is ++ [Instr.final]).length s = .next t ∧
      t.inputs = rest ∧ t.fin = true ∧ t.h = rmd160Chain (is.flatMap messageBytes) ∧
      t.responses = s.responses ++ List.replicate (is.length + 1) (responseWord .ok 0#160) ++
        [responseWord .digest (packDigest (rmd160 (is.flatMap messageBytes)))] := by
  have hready : ∀ {m s}, HasTaken m s → s.fin = false ∧ Readable s := fun hm =>
    ⟨hm.fin, readable_of_buffers hm.buffers⟩
  have hstart := hasTaken_respond (hasTaken_nil_loadIv (s.setInputs (presented (is ++ [.final]) ++ rest))) .ok 0#160
  obtain ⟨t, ht, hmt, htin, htresp⟩ := run_updates (P := HasTaken) hready
    (fun rest hm => hasTaken_setInputs hm rest) hasTaken_exec his hstart
    (rest := presented [.final] ++ rest) (by simp [presented_append])
  obtain ⟨u, hu, huin, hufin, huh, huresp⟩ := (hasTaken_setInputs hmt rest).final
  have hfinal : Host.Core.run Sys2Proof.core [Instr.final].length t = .next u := run_presented_cons htin hu rfl
  refine ⟨u, run_presented_cons hin (exec_init _) (run_presented_append ht hfinal), huin, hufin, huh, ?_⟩
  simp [huresp, htresp, List.replicate_succ]

/-! ### Chunks and whole messages (R66, R67, R70) -/

theorem isUpdate_of_mem_chunks {chunks : List (List Byte)} {i : Instr} (h : i ∈ chunks.flatMap updateCommands) :
    IsUpdate i := by
  obtain ⟨bytes, -, hi⟩ := List.mem_flatMap.1 h
  exact isUpdate_of_mem_updateCommands hi

/-- However the message is cut, the updates bring its bytes in order (R66). -/
theorem flatMap_messageBytes_chunks (chunks : List (List Byte)) :
    (chunks.flatMap updateCommands).flatMap messageBytes = chunks.flatten := by
  rw [List.flatMap_assoc, List.flatten_eq_flatMap]
  exact List.flatMap_congr fun bytes _ => flatMap_messageBytes_updateCommands bytes

/-- Settles O26: the chunks bring the bytes of their concatenation. -/
theorem digestIsTheSameForEveryChunking : Obligations.DigestIsTheSameForEveryChunking := by
  intro s chunks rest hin
  obtain ⟨t, hrun, htin, -, -, hresp⟩ := run_message (fun _ => isUpdate_of_mem_chunks) hin
  rw [flatMap_messageBytes_chunks] at hresp
  exact ⟨t, hrun, htin, by simpa [chunkedCommands] using hresp⟩

/-- Settles O25: one update between `INIT` and `FINAL`. -/
theorem hashCommandsAnswerRmd160 : Obligations.HashCommandsAnswerRmd160 := by
  intro s m rest hin
  obtain ⟨t, hrun, htin, hfin, hh, hresp⟩ := run_message (fun _ => isUpdate_of_mem_updateCommands) hin
  rw [flatMap_messageBytes_updateCommands] at hh hresp
  exact ⟨t, hrun, htin, hfin, hh, by simpa [expand] using hresp⟩

end Sys2Proof.Machine
end

section
/-! The runs of 80 steps (R75, R85 to R88, R91): one loop over both lines is a run of each, and a schedule of their
steps is known by how many of each line it has done. -/

namespace Sys2Proof.Machine

/-! ### The two lines and the combine (R87, R88) -/

/-- Neither line reads the other's words, so the one loop of R91 is a run of each line (R87). -/
theorem bothLines_eq (X : Fin 16 → Word) (js : List (Fin 80)) (l r : Working) :
    bothLines X js (l, r) = (js.foldl (leftStep X) l, js.foldl (rightStep X) r) := by
  induction js generalizing l r with
  | nil => rfl
  | cons j js ih => exact ih (leftStep X l j) (rightStep X r j)

/-- The five sums of R88 are one sum, with the indices taken modulo 5. -/
theorem combine_word (h : Chain) (l r : Working) (i : Fin 5) :
    (combine h l r).word i =
      h.word (i + 1) + Chain.word ⟨l.a, l.b, l.c, l.d, l.e⟩ (i + 2) + Chain.word ⟨r.a, r.b, r.c, r.d, r.e⟩ (i + 3) := by
  match i with
  | 0 | 1 | 2 | 3 | 4 => rfl

/-- Settles O35: the loop over both lines is a run of each, and what is combined are the two results. -/
theorem compressIsTwoIndependentRunsCombined : Obligations.CompressIsTwoIndependentRunsCombined := by
  rintro h B l r rfl rfl i
  rw [compressFn, bothLines_eq, combine_word]
  rfl

/-! ### Schedules (R87) -/

/-- A line after the first `n` of its 80 steps; after all of them when `n` is greater. -/
def lineAfter (step : Working → Fin 80 → Working) (w : Working) (n : Nat) : Working :=
  ((List.finRange 80).take n).foldl step w

section
variable (step : Working → Fin 80 → Working) (w : Working) {n : Nat}

theorem lineAfter_succ (hn : n < 80) : lineAfter step w (n + 1) = step (lineAfter step w n) ⟨n, hn⟩ := by
  have hget : (List.finRange 80)[n]? = some ⟨n, hn⟩ := by simp [hn]
  rw [lineAfter, List.take_add_one, hget, Option.toList_some, List.foldl_append]
  rfl

theorem lineAfter_of_le (hn : 80 ≤ n) : lineAfter step w n = (List.finRange 80).foldl step w := by
  rw [lineAfter, List.take_of_length_le (by simpa using hn)]

end

/-- Both lines in progress, after a schedule has named the left line `m` times and the right line `n` times. -/
def progressAfter (X : Fin 16 → Word) (h : Chain) (m n : Nat) : InProgress :=
  { left := lineAfter (leftStep X) (seed h) m, right := lineAfter (rightStep X) (seed h) n
    jl := min m 80, jr := min n 80 }

theorem advance_left (X : Fin 16 → Word) (h : Chain) (m n : Nat) :
    advance X (progressAfter X h m n) .left = progressAfter X h (m + 1) n := by
  rcases Nat.lt_or_ge m 80 with hm | hm
  · simp [advance, progressAfter, lineAfter_succ, hm, Nat.le_of_lt]
  · simp [advance, progressAfter, lineAfter_of_le, hm, Nat.le_succ_of_le]

theorem advance_right (X : Fin 16 → Word) (h : Chain) (m n : Nat) :
    advance X (progressAfter X h m n) .right = progressAfter X h m (n + 1) := by
  rcases Nat.lt_or_ge n 80 with hn | hn
  · simp [advance, progressAfter, lineAfter_succ, hn, Nat.le_of_lt]
  · simp [advance, progressAfter, lineAfter_of_le, hn, Nat.le_succ_of_le]

/-- A schedule is known by how often it names each line. -/
theorem foldl_advance (X : Fin 16 → Word) (h : Chain) (schedule : List Line) (m n : Nat) :
    schedule.foldl (advance X) (progressAfter X h m n) =
      progressAfter X h (m + schedule.count .left) (n + schedule.count .right) := by
  induction schedule generalizing m n with
  | nil => rfl
  | cons line schedule ih =>
    cases line with
    | left => simp [advance_left, ih, Nat.add_right_comm, Nat.add_assoc]
    | right => simp [advance_right, ih, Nat.add_right_comm, Nat.add_assoc]

theorem runSchedule_eq (X : Fin 16 → Word) (schedule : List Line) (h : Chain) :
    runSchedule X schedule h = progressAfter X h (schedule.count .left) (schedule.count .right) := by
  have hrun := foldl_advance X h schedule 0 0
  rwa [Nat.zero_add, Nat.zero_add] at hrun

/-- Settles O36: after 80 of its steps each line has done all of them. -/
theorem everyInterleavingOfTheLinesAgrees : Obligations.EveryInterleavingOfTheLinesAgrees := by
  intro X h schedule hleft hright
  rw [runSchedule_eq, hleft, hright]
  exact ⟨lineAfter_of_le _ _ le_rfl, lineAfter_of_le _ _ le_rfl⟩

end Sys2Proof.Machine
end

section
/-! One step of a line (R78, R79, R85, R86) and the tables it reads (R80 to R84). -/

namespace Sys2Proof.Machine

/-! ### The five functions (R78), bit by bit -/

section
variable (x y z : Word) {i : Nat}

theorem getLsbD_f1 : (f1 x y z).getLsbD i = ((x.getLsbD i ^^ y.getLsbD i) ^^ z.getLsbD i) := by
  rw [f1, BitVec.getLsbD_xor, BitVec.getLsbD_xor]

theorem getLsbD_f2 (hi : i < 32) : (f2 x y z).getLsbD i = if x.getLsbD i then y.getLsbD i else z.getLsbD i := by
  simp only [f2, BitVec.getLsbD_or, BitVec.getLsbD_and, BitVec.getLsbD_not, hi]
  cases x.getLsbD i <;> simp

theorem getLsbD_f3 (hi : i < 32) : (f3 x y z).getLsbD i = ((x.getLsbD i || !y.getLsbD i) ^^ z.getLsbD i) := by
  simp [f3, hi]

theorem getLsbD_f4 (hi : i < 32) : (f4 x y z).getLsbD i = if z.getLsbD i then x.getLsbD i else y.getLsbD i := by
  simp only [f4, BitVec.getLsbD_or, BitVec.getLsbD_and, BitVec.getLsbD_not, hi]
  cases z.getLsbD i <;> simp

theorem getLsbD_f5 (hi : i < 32) : (f5 x y z).getLsbD i = (x.getLsbD i ^^ (y.getLsbD i || !z.getLsbD i)) := by
  simp [f5, hi]

end

/-- Settles O31: the five functions, one by one. -/
theorem booleanFunctionsBitByBit : Obligations.BooleanFunctionsBitByBit := fun x y z _ hi =>
  ⟨getLsbD_f1 x y z, getLsbD_f2 x y z hi, getLsbD_f3 x y z hi, getLsbD_f4 x y z hi, getLsbD_f5 x y z hi⟩

/-! ### One step, and how the words move (R85, R86) -/

/-- Settles O32: the step's function and constant are those of its round. -/
theorem stepFormulaOfBothLines : Obligations.StepFormulaOfBothLines := by
  intro X w j r hr
  obtain rfl : r = roundOf j := Fin.ext hr
  exact ⟨rfl, rfl⟩

/-- A line's step moves its words as R85 and R86 do: E into A, B into C, C rotated by 10 into D, D into E. -/
def MovesWords (step : Working → Fin 80 → Working) : Prop :=
  ∀ w j, (step w j).a = w.e ∧ (step w j).c = w.b ∧ (step w j).d = rol w.c 10 ∧ (step w j).e = w.d

theorem leftStep_movesWords (X : Fin 16 → Word) : MovesWords (leftStep X) := fun _ _ => ⟨rfl, rfl, rfl, rfl⟩

theorem rightStep_movesWords (X : Fin 16 → Word) : MovesWords (rightStep X) := fun _ _ => ⟨rfl, rfl, rfl, rfl⟩

/-- In four steps B moves through C, D and E into A; the rotation by 10 falls on its way from C into D. -/
theorem MovesWords.foldl_four_a {step : Working → Fin 80 → Working} (h : MovesWords step) (w : Working)
    (j1 j2 j3 j4 : Fin 80) : ([j1, j2, j3, j4].foldl step w).a = rol w.b 10 := by
  obtain ⟨-, hc, -, -⟩ := h w j1
  obtain ⟨-, -, hd, -⟩ := h (step w j1) j2
  obtain ⟨-, -, -, he⟩ := h (step (step w j1) j2) j3
  obtain ⟨ha, -, -, -⟩ := h (step (step (step w j1) j2) j3) j4
  rw [List.foldl_cons, List.foldl_cons, List.foldl_cons, List.foldl_cons, List.foldl_nil, ha, he, hd, hc]

/-- Settles O33: both lines move their words in the same way. -/
theorem newWordReachesAFourStepsLater : Obligations.NewWordReachesAFourStepsLater := fun X w j0 j1 j2 j3 j4 =>
  ⟨(leftStep_movesWords X).foldl_four_a (leftStep X w j0) j1 j2 j3 j4,
    (rightStep_movesWords X).foldl_four_a (rightStep X w j0) j1 j2 j3 j4⟩

/-! ### The tables (R80 to R84) -/

/-- Step `k` of the sixteen of round `r`, both numbered from 0. -/
def stepOfRound (r : Fin 5) (k : Fin 16) : Fin 80 := ⟨16 * r.val + k.val, by omega⟩

theorem stepOfRound_div (r : Fin 5) (k : Fin 16) : (stepOfRound r k).val / 16 = r.val := by
  simp only [stepOfRound]
  omega

theorem exists_rl_stepOfRound : ∀ (r : Fin 5) (i : Fin 16), ∃ k : Fin 16, rl (stepOfRound r k) = i := by decide

theorem exists_rr_stepOfRound : ∀ (r : Fin 5) (i : Fin 16), ∃ k : Fin 16, rr (stepOfRound r k) = i := by decide

theorem sl_bounds : ∀ j : Fin 80, 5 ≤ sl j ∧ sl j ≤ 15 := by decide

theorem sr_bounds : ∀ j : Fin 80, 5 ≤ sr j ∧ sr j ≤ 15 := by decide

theorem klRound_eq_zero_iff : ∀ r : Fin 5, klRound r = 0#32 ↔ r = 0 := by decide

theorem krRound_eq_zero_iff : ∀ r : Fin 5, krRound r = 0#32 ↔ r = 4 := by decide

/-- Settles O34: the word a line uses is found among the sixteen steps of the round. -/
theorem tablesKeepTheirStatedShape : Obligations.TablesKeepTheirStatedShape := by
  refine ⟨fun r i => ?_, fun j => ⟨sl_bounds j, sr_bounds j⟩, fun r => ⟨klRound_eq_zero_iff r, krRound_eq_zero_iff r⟩⟩
  obtain ⟨k, hk⟩ := exists_rl_stepOfRound r i
  obtain ⟨k', hk'⟩ := exists_rr_stepOfRound r i
  exact ⟨⟨stepOfRound r k, stepOfRound_div r k, hk⟩, ⟨stepOfRound r k', stepOfRound_div r k', hk'⟩⟩

end Sys2Proof.Machine
end

section
/-! The serialiser byte by byte (R106) and the number of blocks of the padded message (R71, R109). -/

namespace Sys2Proof.Machine

theorem le32bytes_getElem? (w : Word) (k : Fin 4) : (le32bytes w)[k.val]? = some (w.extractLsb' (8 * k.val) 8) := by
  rw [le32bytes_eq_map, List.getElem?_map, List.getElem?_range k.isLt, Option.map_some, byteOfNat_toNat]

/-- Words put out one after the other: byte `4i + k` is byte `k` of word `i`. -/
theorem flatMap_le32bytes_getElem? {ws : List Word} {i : Nat} {w : Word} (hw : ws[i]? = some w) (k : Fin 4) :
    (ws.flatMap le32bytes)[4 * i + k.val]? = (le32bytes w)[k.val]? := by
  induction ws generalizing i with
  | nil => simp at hw
  | cons v ws ih =>
    rw [List.flatMap_cons]
    cases i with
    | zero =>
      obtain rfl : v = w := by simpa using hw
      rw [Nat.mul_zero, Nat.zero_add, List.getElem?_append_left (by simp)]
    | succ i =>
      have hindex : 4 * (i + 1) + k.val - (le32bytes v).length = 4 * i + k.val := by
        rw [le32bytes_length]
        omega
      rw [List.getElem?_append_right (by rw [le32bytes_length]; omega), hindex, ih hw]

theorem serialize_eq_flatMap (h : Chain) : serialize h = ((List.finRange 5).map h.word).flatMap le32bytes := rfl

/-- Settles O41: byte `4i + k` is found in the four bytes of word `i`. -/
theorem serializerPutsOutEachWordLittleEndian : Obligations.SerializerPutsOutEachWordLittleEndian := by
  refine fun h => ⟨serialize_length h, fun i k => ?_⟩
  have hword : ((List.finRange 5).map h.word)[i.val]? = some (h.word i) := by simp
  rw [serialize_eq_flatMap, flatMap_le32bytes_getElem? hword, le32bytes_getElem?]

/-- Settles O43: the bounds follow from the number of blocks. -/
theorem paddedMessageFillsWholeBlocks : Obligations.PaddedMessageFillsWholeBlocks := by
  intro m
  have hlength := paddedMessage_length m
  exact ⟨hlength, by omega, by omega⟩

end Sys2Proof.Machine
end

section
/-! What taking `InvalidState` does (R115 to R117, R120). -/

namespace Sys2Proof.Machine

/-- The exception appends its response word (R52: status 2; R54: digest 0) and writes no register (R117). -/
theorem raiseInvalidState_eq (s : State) :
    s.raiseInvalidState = { s with responses := s.responses ++ [0b10#2 ++ 0#160] } := rfl

/-- Settles O16: outside `INIT` every command of a Finalized engine is a misuse, and a misuse only responds. -/
theorem misuseWritesNothing : Obligations.MisuseWritesNothing := by
  intro s i hf hi
  rw [exec_finalized hf hi, raiseInvalidState_eq]

end Sys2Proof.Machine
end

section
/-! Reset, rest, and that the engine never stops (R128, R135, R142). -/

namespace Sys2Proof.Machine

/-- Settles O23: rest and reset always answer, and a command answers where the buffered bytes have values. -/
theorem noStepStopsUnderTheInvariant : Obligations.NoStepStopsUnderTheInvariant := by
  rintro s ⟨-, hacc, -⟩
  cases hin : s.inputs with
  | nil => exact ⟨s, step_of_no_input hin⟩
  | cons i rest =>
    cases i with
    | reset => exact ⟨_, step_of_reset hin⟩
    | command w =>
      have hread : s.fin = false → Readable s := fun hf => (hacc hf).right
      rw [step_of_command hin]
      exact exec_completes (decode w) (s := s.setInputs rest) hread

/-- Settles O10: the step is `hardwareReset`, which loads the registers that `INIT` loads. -/
theorem hardwareResetGivesTheJustConstructedState : Obligations.HardwareResetGivesTheJustConstructedState := by
  refine ⟨⟨rfl, rfl, rfl, rfl⟩, fun s rest hin => ?_⟩
  refine ⟨_, step_of_reset hin, rfl, rfl, rfl, rfl, rfl, rfl, fun u v hinit => ?_⟩
  obtain rfl : u.loadIv.respond .ok 0#160 = v := Host.Outcome.next.inj (exec_init u ▸ hinit)
  exact ⟨rfl, rfl, rfl, rfl⟩

/-- Settles O11: no input, no change. -/
theorem engineWithNothingPendingIsAtRest : Obligations.EngineWithNothingPendingIsAtRest :=
  fun _ => step_of_no_input

end Sys2Proof.Machine
end
